-- ==== Sys2Proof/Word.lean ====
section
/-! DEFINITION. The word and address types of the block (00_scope.md R10, 20_memory.md R50). -/

namespace Sys2Proof

/-- A 16-bit word, always unsigned (00_scope.md R6, R10). -/
abbrev Word := BitVec 16

/-- A word address of the host register space, 13 bits (20_memory.md R50). -/
abbrev Addr := BitVec 13

end Sys2Proof
end

