-- ==== Sys2Proof/Config.lean ====
section
/-! DEFINITION. What the spec leaves to the implementation or leaves unspecified: constants with no body, so that
no proof can rest on a value of theirs. -/

namespace Sys2Proof.Config

/-- One less than the implementation's MAX_STEPS. MAX_STEPS is a parameter, 1..255 (00_scope.md R8, 92 D8);
counting from 1 keeps that bound without fixing a value. Log entry 7. -/
opaque maxStepsLessOne : Fin 255

/-- MAX_STEPS, the largest NUM_STEPS the table storage holds (00_scope.md R8). Log entry 7. -/
def maxSteps : BitVec 8 := BitVec.ofNat 8 (maxStepsLessOne.val + 1)

/-- The free value of draw number n: what an unspecified word is (10_state.md R23, R38; 20_memory.md R56, R57;
93 rows 3 and 4). Nothing constrains it. Log entry 8. -/
opaque freeWord : Nat → Word

end Sys2Proof.Config
end

