-- ==== Sys2Proof/Syntax.lean ====
section
/-! DEFINITION. The commands of the block, one constructor per row of spec/opcode_table.json
(30_encoding.md R81, in the table's order). -/

namespace Sys2Proof

/-- The branch number b of ARX and ARXI, the B field of the command word (30_encoding.md R82). -/
inductive Branch where
  | b0
  | b1
  deriving DecidableEq, Repr

/-- A command. The last constructor is the table's reserved row: every word that decodes to Illegal, kept with its
word, since the block accepts it and raises IllegalCommand at its completion (30_encoding.md R86). -/
inductive Instr where
  | nop
  | arx (b : Branch)
  | arxi (b : Branch)
  | lin
  | lini
  | kload
  | kperm
  | ksched
  | enc
  | dec
  | encs
  | decs
  | illegal (w : Word)
  deriving DecidableEq, Repr

end Sys2Proof
end

