-- ==== Sys2Proof/Machine/State.lean ====
section
/-! DEFINITION. The state of the block, as plain data, and the state right after reset (10_state.md). -/

namespace Sys2Proof.Machine

/-- Four like things in index order: the words ST[0..3] (10_state.md R21), or one fact about each. -/
structure Quad (α : Type) where
  w0 : α
  w1 : α
  w2 : α
  w3 : α
  deriving DecidableEq, Repr

/-- Eight like things in index order: the words MK[0..7] or KR[0..7] (10_state.md R22, R23), or one fact about each. -/
structure Oct (α : Type) where
  w0 : α
  w1 : α
  w2 : α
  w3 : α
  w4 : α
  w5 : α
  w6 : α
  w7 : α
  deriving DecidableEq, Repr

/-- The subkey table storage SK: (window address, word) pairs, addresses strictly rising, no pair whose word is what
an unlisted address holds (10_state.md R24, 20_memory.md R53). The smallest unit is the 16-bit word (20_memory.md
R50), so a cell is a word, not a byte. Log entries 5 and 6. -/
abbrev Memory := List (Nat × Word)

/-- The error codes of STATUS.ERR. Codes 5..15 are reserved and never produced, so they are no values here
(60_exceptions.md R230). -/
inductive ErrCode where
  | none
  | configError
  | rangeError
  | noSchedule
  | illegalCommand
  deriving DecidableEq, Repr

/-- The cause bits of STATUS.CAUSE, bit 0 first (60_exceptions.md R231). -/
structure Cause where
  rpsTooLarge : Bool
  rpsTooSmall : Bool
  stepsZero : Bool
  capacity : Bool
  deriving DecidableEq, Repr

/-- The host's two access primitives (20_memory.md R51). -/
inductive HostAccess where
  | read (a : Addr)
  | write (a : Addr) (v : Word)
  deriving DecidableEq, Repr

/-- One step of the total order of 20_memory.md R62: a host access, the reset input (70_reset_and_hazards.md R270),
or the sequencer's turn, at which the command in flight, if there is one, completes (10_state.md R33). -/
inductive Event where
  | host (x : HostAccess)
  | reset
  | sequencer
  deriving DecidableEq, Repr

/-- The state of the block (10_state.md R20, R33) with the outside's steps to come. -/
structure State where
  /-- ST[0..3], the CipherState (R21). -/
  st : Quad Word
  /-- MK[0..7], the MasterKey (R22). -/
  mkey : Oct Word
  /-- KR[0..7], the KeyRegister (R23). -/
  kr : Oct Word
  /-- SK, the SubkeyTable storage (R24). -/
  sk : Memory
  /-- CFG, bits [15:11] zero (R27). -/
  cfg : Word
  /-- RANGE: FROM in [7:0], TO in [15:8] (R28). -/
  range : Word
  /-- RIDX, the round index of KPERM (R29). -/
  ridx : Word
  /-- TBL_CFG, bits [15:11] zero (R30). -/
  tblCfg : Word
  /-- MAX_STEPS, PARAM[7:0], a constant of the block (R31; 00_scope.md R8). -/
  maxSteps : BitVec 8
  /-- STATUS.BUSY (R32, R33). -/
  busy : Bool
  /-- TBL_VALID, STATUS[1] (R25). -/
  tblValid : Bool
  /-- STATUS.ERR (R32; 60_exceptions.md R230). -/
  err : ErrCode
  /-- STATUS.CAUSE (R32; 60_exceptions.md R231). -/
  cause : Cause
  /-- CUR, the command latch (R33). -/
  cur : Word
  /-- Which words of ST hold a defined value (R38). Log entries 2 and 3. -/
  stDef : Quad Bool
  /-- Which words of MK hold a defined value (R38). -/
  mkeyDef : Oct Bool
  /-- Which words of KR hold a defined value (R38). -/
  krDef : Oct Bool
  /-- Which words of the key that the table was built from held a defined value (R38). They say which words of SK do
  (State.skWordDef). Log entry 3. -/
  skDef : Oct Bool
  /-- Whether the run is marked faulted: a data word that holds no defined value has been read by the host or used by a
  command (R38's last bullet; 93 rows 1, 2 and 9). Log entry 20. -/
  faulted : Bool
  /-- The model's own: how many free values have been used. Log entry 8. -/
  draws : Nat
  /-- The steps to come, oldest first (20_memory.md R62). Log entry 10. -/
  agenda : List Event
  /-- The words the host's reads have returned, oldest first (20_memory.md R51). Log entry 12. -/
  replies : List Word
  deriving DecidableEq, Repr

/-- Why the machine stops with a fault. The spec gives no such stop: every command completes (70_reset_and_hazards.md
R290), an error of a command is a completion (60_exceptions.md R237), and no host access raises an error
(20_memory.md R54). So the type has no value. Log entry 18. -/
inductive Fault where
  deriving DecidableEq, Repr

/-- Why an instruction has no meaning. -/
inductive Refusal where
  /-- Raised by an arm of exec whose instruction has no meaning yet; no arm is left that raises it. Safe: the machine
  stops where the hardware goes on. -/
  | notModelled (mnemonic : String)
  deriving DecidableEq, Repr

/-- The same thing four times. -/
def Quad.all4 {α : Type} (x : α) : Quad α := ⟨x, x, x, x⟩

/-- The same thing eight times. -/
def Oct.all8 {α : Type} (x : α) : Oct α := ⟨x, x, x, x, x, x, x, x⟩

/-- No cause bit set. -/
def Cause.clear : Cause := ⟨false, false, false, false⟩

/-- The state right after reset (10_state.md R37). The data words, SK and CUR are unspecified there; the values
given them here are the model's (log entries 1, 4, 5), and no data word is marked defined. -/
def State.reset : State where
  st := Quad.all4 0x0000
  mkey := Oct.all8 0x0000
  kr := Oct.all8 0x0000
  sk := []
  cfg := 0x0308
  range := 0x0000
  ridx := 0x0000
  tblCfg := 0x0000
  maxSteps := Config.maxSteps
  busy := false
  tblValid := false
  err := .none
  cause := Cause.clear
  cur := 0x0000
  stDef := Quad.all4 false
  mkeyDef := Oct.all8 false
  krDef := Oct.all8 false
  skDef := Oct.all8 false
  faulted := false
  draws := 0
  agenda := []
  replies := []

end Sys2Proof.Machine
end

