-- ==== Sys2Proof/Machine/Ops.lean ====
section
/-! DEFINITION. The shared operations: the rotations of 00_scope.md R11, indexed words, the table storage, issuing a
command (10_state.md R33), and its completion, with or without an error (60_exceptions.md R237). -/

namespace Sys2Proof.Machine

/-! ## Rotations (00_scope.md R11) -/

/-- rotl16(x, n), for 1 ≤ n ≤ 15 (R11). -/
def rotl16 (x : Word) (n : Nat) : Word := (x <<< n) ||| (x >>> (16 - n))

/-- rotr16(x, n) = rotl16(x, 16 - n), for 1 ≤ n ≤ 15 (R11). -/
def rotr16 (x : Word) (n : Nat) : Word := rotl16 x (16 - n)

/-! ## Indexed words (10_state.md R21, R22, R23) -/

/-- Element i, as ST[i]. -/
def Quad.get {α : Type} (q : Quad α) : Fin 4 → α
  | 0 => q.w0
  | 1 => q.w1
  | 2 => q.w2
  | 3 => q.w3

/-- Element i replaced, as ST[i] <- v. -/
def Quad.set {α : Type} (q : Quad α) (i : Fin 4) (v : α) : Quad α :=
  match i with
  | 0 => { q with w0 := v }
  | 1 => { q with w1 := v }
  | 2 => { q with w2 := v }
  | 3 => { q with w3 := v }

/-- Element i, as MK[i] or KR[i]. -/
def Oct.get {α : Type} (k : Oct α) : Fin 8 → α
  | 0 => k.w0
  | 1 => k.w1
  | 2 => k.w2
  | 3 => k.w3
  | 4 => k.w4
  | 5 => k.w5
  | 6 => k.w6
  | 7 => k.w7

/-- Element i replaced, as MK[i] <- v. -/
def Oct.set {α : Type} (k : Oct α) (i : Fin 8) (v : α) : Oct α :=
  match i with
  | 0 => { k with w0 := v }
  | 1 => { k with w1 := v }
  | 2 => { k with w2 := v }
  | 3 => { k with w3 := v }
  | 4 => { k with w4 := v }
  | 5 => { k with w5 := v }
  | 6 => { k with w6 := v }
  | 7 => { k with w7 := v }

/-- The eight elements in index order. -/
def Oct.toList {α : Type} (k : Oct α) : List α := [k.w0, k.w1, k.w2, k.w3, k.w4, k.w5, k.w6, k.w7]

/-- Branch b, the pair (x[2b], x[2b+1]) (00_scope.md R14, 10_state.md R21). -/
def Quad.branch {α : Type} (q : Quad α) : Branch → α × α
  | .b0 => (q.w0, q.w1)
  | .b1 => (q.w2, q.w3)

/-- Branch b replaced by the pair p. -/
def Quad.setBranch {α : Type} (q : Quad α) (b : Branch) (p : α × α) : Quad α :=
  match b with
  | .b0 => { q with w0 := p.1, w1 := p.2 }
  | .b1 => { q with w2 := p.1, w3 := p.2 }

/-- The other branch. -/
def otherBranch : Branch → Branch
  | .b0 => .b1
  | .b1 => .b0

/-- All four hold. -/
def Quad.every (q : Quad Bool) : Bool := q.w0 && q.w1 && q.w2 && q.w3

/-- All eight hold. -/
def Oct.every (k : Oct Bool) : Bool :=
  k.w0 && k.w1 && k.w2 && k.w3 && k.w4 && k.w5 && k.w6 && k.w7

/-! ## The table storage (10_state.md R24, 20_memory.md R53) -/

/-- What an address that the storage does not list holds. Log entry 5. -/
def Memory.unlisted : Word := 0x0000

/-- The word at an address of the storage. -/
def Memory.read : Memory → Nat → Word
  | [], _ => Memory.unlisted
  | (k, v) :: m, a => if k = a then v else Memory.read m a

/-- A pair put in front, unless its word is what an unlisted address holds. -/
def Memory.push (a : Nat) (v : Word) (m : Memory) : Memory := if v = Memory.unlisted then m else (a, v) :: m

/-- The word at an address replaced, keeping the canonical form. -/
def Memory.write : Memory → Nat → Word → Memory
  | [], a, v => Memory.push a v []
  | (k, x) :: m, a, v =>
    if a < k then Memory.push a v ((k, x) :: m)
    else if a = k then Memory.push a v m
    else (k, x) :: Memory.write m a v

/-- Words written at consecutive addresses, the first at a (20_memory.md R52). -/
def Memory.writeWords : Memory → Nat → List Word → Memory
  | m, _, [] => m
  | m, a, v :: vs => Memory.writeWords (Memory.write m a v) (a + 1) vs

/-- The canonical form from address lo on: addresses strictly rising from lo, no unlisted word listed. -/
def Memory.wfFrom : Nat → Memory → Bool
  | _, [] => true
  | lo, (k, v) :: m => decide (lo ≤ k) && decide (v ≠ Memory.unlisted) && Memory.wfFrom (k + 1) m

/-- The canonical form. -/
def Memory.wf (m : Memory) : Bool := Memory.wfFrom 0 m

/-- Every listed address lies in [lo, hi). -/
def Memory.within (lo hi : Nat) (m : Memory) : Bool := m.all fun p => decide (lo ≤ p.1) && decide (p.1 < hi)

/-- The window address of SK[c][w] (20_memory.md R53). -/
def skAddr (c w : Nat) : Nat := 0x100 + 8 * c + w

/-- SK[c][w] (10_state.md R24). -/
def State.skWord (s : State) (c w : Nat) : Word := s.sk.read (skAddr c w)

/-- One past the last address of the storage: 2*MAX_STEPS + 1 entries of 8 words (10_state.md R24; 00_scope.md R8). -/
def State.skEnd (s : State) : Nat := skAddr (2 * s.maxSteps.toNat + 1) 0

/-! ## Writing the data registers, with what is known of them -/

/-- ST <- q, with which of its words hold a defined value (10_state.md R38). -/
def State.withSt (s : State) (q : Quad Word) (d : Quad Bool) : State := { s with st := q, stDef := d }

/-- KR <- k, with which of its words hold a defined value (10_state.md R38). -/
def State.withKr (s : State) (k : Oct Word) (d : Oct Bool) : State := { s with kr := k, krDef := d }

/-- KR <- unspecified: eight free values, one per word (10_state.md R23; 93 row 3). Each word then holds some value,
so all are defined (R38's last paragraph). Log entry 9. -/
def State.discardKr (s : State) : State :=
  { s with
    kr := ⟨Config.freeWord s.draws, Config.freeWord (s.draws + 1), Config.freeWord (s.draws + 2),
      Config.freeWord (s.draws + 3), Config.freeWord (s.draws + 4), Config.freeWord (s.draws + 5),
      Config.freeWord (s.draws + 6), Config.freeWord (s.draws + 7)⟩
    krDef := Oct.all8 true
    draws := s.draws + 8 }

/-- A new table: its storage, its configuration, TBL_VALID <- 1, and which words of the key it was built from were
defined (10_state.md R25, R30, R38). -/
def State.withTable (s : State) (m : Memory) (cfg : Word) (d : Oct Bool) : State :=
  { s with sk := m, tblCfg := cfg, tblValid := true, skDef := d }

/-! ## Issue and completion of a command (10_state.md R33, 60_exceptions.md R237) -/

/-- The issue of the command v: CUR <- v, BUSY <- 1, ERR and CAUSE cleared (10_state.md R33). This is also the only
clearing of an error there is: no command returns from one (60_exceptions.md R238). -/
def State.issue (s : State) (v : Word) : State :=
  { s with cur := v, busy := true, err := .none, cause := Cause.clear }

/-- What a command raises (00_scope.md R12). -/
inductive CommandError where
  | configError (c : Cause)
  | rangeError
  | noSchedule
  | illegalCommand
  deriving DecidableEq, Repr

/-- The STATUS.ERR code of an error (60_exceptions.md R230). -/
def CommandError.err : CommandError → ErrCode
  | .configError _ => .configError
  | .rangeError => .rangeError
  | .noSchedule => .noSchedule
  | .illegalCommand => .illegalCommand

/-- The STATUS.CAUSE bits of an error: none but for ConfigError (60_exceptions.md R230, R231). -/
def CommandError.cause : CommandError → Cause
  | .configError c => c
  | .rangeError => Cause.clear
  | .noSchedule => Cause.clear
  | .illegalCommand => Cause.clear

/-- The completion: BUSY <- 0, and ERR and CAUSE take the command's result (10_state.md R32, R33). -/
def State.complete (s : State) (e : ErrCode) (c : Cause) : State := { s with busy := false, err := e, cause := c }

/-- The error completion, the block's one form of taking an exception: the state before the command but for STATUS
(60_exceptions.md R237). -/
def State.takeError (s : State) (e : CommandError) : State := s.complete e.err e.cause

/-- The end of a command begun in s: what it computed, completed without an error, or its error taken in s itself, so
that nothing else it may have computed is written (60_exceptions.md R237; 10_state.md R33). -/
def State.finish (s : State) : Except CommandError State → State
  | .ok t => t.complete .none Cause.clear
  | .error e => s.takeError e

/-- The run is marked faulted if a data word just used was not defined (10_state.md R38; 93: "the run is marked faulted
and never final"). The mark stays. Log entry 20. -/
def State.noteUse (s : State) (defined : Bool) : State := { s with faulted := s.faulted || !defined }

/-- A command, as the one atomic step of its completion (10_state.md R33, R34); `defined` says that every data word it
uses as an operand holds a defined value (R38). -/
def perform (defined : Bool) (command : State → Except CommandError State) (s : State) :
    Host.Outcome State Fault Refusal :=
  .next ((s.finish (command s)).noteUse defined)

end Sys2Proof.Machine
end

