-- ==== Sys2Proof/Machine/Control.lean ====
section
/-! DEFINITION. NOP (45_control.md R220) and the completion of a reserved word (30_encoding.md R86, 60_exceptions.md
R232). -/

namespace Sys2Proof.Machine

/-- NOP: ERR and CAUSE cleared, nothing else (45_control.md R220). -/
def execNop (s : State) : Host.Outcome State Fault Refusal := perform true (fun s => .ok s) s

/-- A word that decodes to Illegal: IllegalCommand, whatever the word (30_encoding.md R86; 60_exceptions.md R232). -/
def execIllegal (_w : Word) (s : State) : Host.Outcome State Fault Refusal :=
  perform true (fun _ => .error .illegalCommand) s

end Sys2Proof.Machine
end

