-- ==== Sys2Proof/Machine/Operands.lean ====
section
/-! DEFINITION. The operands of the commands, read from the registers their opcodes name (30_encoding.md R82 to R84).
All are unsigned integers; none is extended, scaled or shifted (R84). -/

namespace Sys2Proof.Machine

/-- NUM_STEPS, bits [7:0] of a configuration word (10_state.md R27, R30). -/
def stepsField (v : Word) : Nat := (v.extractLsb' 0 8).toNat

/-- NUM_ROUNDS_PER_STEP, bits [10:8] of a configuration word (10_state.md R27, R30). -/
def rpsField (v : Word) : Nat := (v.extractLsb' 8 3).toNat

/-- KSCHED's N = CFG[7:0] (R84). -/
def State.cfgSteps (s : State) : Nat := stepsField s.cfg

/-- KSCHED's R = CFG[10:8] (R84). -/
def State.cfgRps (s : State) : Nat := rpsField s.cfg

/-- The step commands' N = TBL_CFG[7:0] (R84; 10_state.md R30). -/
def State.tblSteps (s : State) : Nat := stepsField s.tblCfg

/-- The step commands' R = TBL_CFG[10:8] (R84; 10_state.md R30). -/
def State.tblRps (s : State) : Nat := rpsField s.tblCfg

/-- from_step = RANGE[7:0] (R84; 10_state.md R28). -/
def State.fromStep (s : State) : Nat := (s.range.extractLsb' 0 8).toNat

/-- to_step = RANGE[15:8] (R84; 10_state.md R28). -/
def State.toStep (s : State) : Nat := (s.range.extractLsb' 8 8).toNat

/-- The KPERM round index = RIDX[15:0] (R84; 10_state.md R29). -/
def State.roundIndex (s : State) : Nat := s.ridx.toNat

/-- The writable bits of CFG, [10:0]; the rest are reserved (10_state.md R27, 20_memory.md R55). -/
def cfgWritable (v : Word) : Word := v &&& 0x07FF

end Sys2Proof.Machine
end

