-- ==== Sys2Proof/Machine/Round.lean ====
section
/-! DEFINITION. The RoundFunction and the commands ARX and ARXI (40_round_function.md). -/

namespace Sys2Proof.Machine

/-- A(l, r) (R100). -/
def roundA (l r : Word) : Word × Word :=
  let l1 := rotr16 l 7
  let l2 := l1 + r
  let r1 := rotl16 r 2
  let r2 := r1 ^^^ l2
  (l2, r2)

/-- A_inverse(l, r) (R101). -/
def roundAInv (l r : Word) : Word × Word :=
  let r1 := r ^^^ l
  let r2 := rotr16 r1 2
  let l1 := l - r2
  let l2 := rotl16 l1 7
  (l2, r2)

/-- Both results of A, and of A_inverse, are computed from both operands, so each is defined when both are
(10_state.md R38). -/
def roundDef (p : Bool × Bool) : Bool × Bool := (p.1 && p.2, p.1 && p.2)

/-- Both words of branch b hold a defined value: the operands of ARX and ARXI (10_state.md R38; R104, R105). -/
def State.branchDefined (s : State) (b : Branch) : Bool := (s.stDef.branch b).1 && (s.stDef.branch b).2

/-- Branch b of ST replaced by a function of it; the other branch stays (R104, R105). -/
def State.onBranch (s : State) (b : Branch) (f : Word → Word → Word × Word) : State :=
  s.withSt (s.st.setBranch b (f (s.st.branch b).1 (s.st.branch b).2))
    (s.stDef.setBranch b (roundDef (s.stDef.branch b)))

/-- ARX b: A on branch b of ST (R104). -/
def execArx (b : Branch) (s : State) : Host.Outcome State Fault Refusal :=
  perform (s.branchDefined b) (fun s => .ok (s.onBranch b roundA)) s

/-- ARXI b: A_inverse on branch b of ST (R105). -/
def execArxi (b : Branch) (s : State) : Host.Outcome State Fault Refusal :=
  perform (s.branchDefined b) (fun s => .ok (s.onBranch b roundAInv)) s

end Sys2Proof.Machine
end

