-- ==== Sys2Proof/Machine/Key.lean ====
section
/-! DEFINITION. The KeyPermutation and the commands KLOAD and KPERM (42_key_permutation.md). -/

namespace Sys2Proof.Machine

/-- KP(k, c): the four steps of R140, each on the result of the one before. -/
def keyPerm (k : Oct Word) (c : Nat) : Oct Word :=
  let a := roundA k.w0 k.w1
  let a2 := k.w2 + a.1
  let a3 := k.w3 + a.2
  let a7 := k.w7 + BitVec.ofNat 16 c
  ⟨k.w6, a7, a.1, a.2, a2, a3, k.w4, k.w5⟩

/-- Which words of KP(k, c) are computed from defined words only (10_state.md R38); the round index is always
defined. -/
def keyPermDef (d : Oct Bool) : Oct Bool :=
  let a := roundDef (d.w0, d.w1)
  ⟨d.w6, d.w7, a.1, a.2, d.w2 && a.1, d.w3 && a.2, d.w4, d.w5⟩

/-- Which words of KP^(c)(mk), and so of subkey entry c, are computed from defined words only, when d says it of mk
(43_key_schedule.md R161; 10_state.md R38). -/
def keyDefAt (d : Oct Bool) : Nat → Oct Bool
  | 0 => d
  | c + 1 => keyPermDef (keyDefAt d c)

/-- Whether SK[c][w] of the table holds a defined value: it was computed from defined words of MK only (10_state.md R38;
43_key_schedule.md R161, R164). -/
def State.skWordDef (s : State) (c w : Nat) : Bool := (keyDefAt s.skDef c).get (Fin.ofNat 8 w)

/-- KLOAD: KR <- MK, word by word, a word of KR being defined when the MK word it is copied from is (R143). -/
def execKload (s : State) : Host.Outcome State Fault Refusal :=
  perform s.mkeyDef.every (fun s => .ok (s.withKr s.mkey s.mkeyDef)) s

/-- KPERM: KR <- KP(KR, RIDX) (R144). -/
def execKperm (s : State) : Host.Outcome State Fault Refusal :=
  perform s.krDef.every (fun s => .ok (s.withKr (keyPerm s.kr s.roundIndex) (keyPermDef s.krDef))) s

end Sys2Proof.Machine
end

