-- ==== Sys2Proof/Machine/Linear.lean ====
section
/-! DEFINITION. The LinearLayer and the commands LIN and LINI (41_linear_layer.md). -/

namespace Sys2Proof.Machine

/-- L(s0, s1, s2, s3) (R120). -/
def linL (x : Quad Word) : Quad Word :=
  let t := rotl16 (x.w0 ^^^ x.w1) 8
  let n2 := x.w2 ^^^ x.w0 ^^^ t
  let n3 := x.w3 ^^^ x.w1 ^^^ t
  ⟨n2, n3, x.w0, x.w1⟩

/-- L_inverse(y0, y1, y2, y3): swap first (R121). -/
def linLInv (y : Quad Word) : Quad Word :=
  let a : Quad Word := ⟨y.w2, y.w3, y.w0, y.w1⟩
  let t := rotl16 (a.w0 ^^^ a.w1) 8
  ⟨a.w0, a.w1, a.w2 ^^^ a.w0 ^^^ t, a.w3 ^^^ a.w1 ^^^ t⟩

/-- Which words of L(x) are computed from defined words only (10_state.md R38): t takes x[0] and x[1]. -/
def linLDef (d : Quad Bool) : Quad Bool := ⟨d.w2 && d.w0 && d.w1, d.w3 && d.w1 && d.w0, d.w0, d.w1⟩

/-- Which words of L_inverse(y) are computed from defined words only (10_state.md R38): t takes y[2] and y[3]. -/
def linLInvDef (d : Quad Bool) : Quad Bool := ⟨d.w2, d.w3, d.w0 && d.w2 && d.w3, d.w1 && d.w3 && d.w2⟩

/-- LIN: ST <- L(ST) (R124). -/
def execLin (s : State) : Host.Outcome State Fault Refusal :=
  perform s.stDef.every (fun s => .ok (s.withSt (linL s.st) (linLDef s.stDef))) s

/-- LINI: ST <- L_inverse(ST) (R125). -/
def execLini (s : State) : Host.Outcome State Fault Refusal :=
  perform s.stDef.every (fun s => .ok (s.withSt (linLInv s.st) (linLInvDef s.stDef))) s

end Sys2Proof.Machine
end

