-- ==== Sys2Proof/Machine/Flags.lean ====
section
/-! DEFINITION. The STATUS and PARAM words, the error codes and cause bits (10_state.md R31, R32; 60_exceptions.md
R230, R231), and the configuration check (43_key_schedule.md R162). -/

namespace Sys2Proof.Machine

/-- The code of STATUS.ERR (60_exceptions.md R230). -/
def ErrCode.code : ErrCode → BitVec 4
  | .none => 0
  | .configError => 1
  | .rangeError => 2
  | .noSchedule => 3
  | .illegalCommand => 4

/-- STATUS.CAUSE: bit 0 RPS_TOO_LARGE, bit 1 RPS_TOO_SMALL, bit 2 STEPS_ZERO, bit 3 CAPACITY (60_exceptions.md R231). -/
def Cause.bits (c : Cause) : BitVec 4 :=
  BitVec.ofBool c.capacity ++ BitVec.ofBool c.stepsZero ++ BitVec.ofBool c.rpsTooSmall ++ BitVec.ofBool c.rpsTooLarge

/-- The word a read of STATUS returns: CAUSE [11:8], ERR [7:4], TBL_VALID [1], BUSY [0], the rest 0 (10_state.md R32). -/
def State.status (s : State) : Word :=
  (0 : BitVec 4) ++ s.cause.bits ++ s.err.code ++ (0 : BitVec 2) ++ BitVec.ofBool s.tblValid ++ BitVec.ofBool s.busy

/-- IF_REV, the interface revision (10_state.md R31). -/
def interfaceRevision : BitVec 8 := 0x01

/-- The word a read of PARAM returns: IF_REV [15:8], MAX_STEPS [7:0] (10_state.md R31). -/
def State.param (s : State) : Word := interfaceRevision ++ s.maxSteps

/-- R162's check: every failing condition of the configuration (N, R), for a table capacity of maxSteps steps. -/
def configCause (maxSteps n r : Nat) : Cause where
  rpsTooLarge := decide (2 * r > 8)
  rpsTooSmall := decide (r < 2)
  stepsZero := decide (n = 0)
  capacity := decide (2 * n + 1 > 2 * maxSteps + 1)

end Sys2Proof.Machine
end

