-- ==== Sys2Proof/Machine/Schedule.lean ====
section
/-! DEFINITION. The KeySchedule and the command KSCHED (43_key_schedule.md). -/

namespace Sys2Proof.Machine

/-- R160's loop from entry c on, for `count` more entries: record the first 2R words of the working register as
entry c, then advance it with round index c + 1. -/
def recordEntries (r : Nat) : (count c : Nat) → Oct Word → Memory → Memory
  | 0, _, _, m => m
  | count + 1, c, k, m =>
    recordEntries r count (c + 1) (keyPerm k (c + 1)) (m.writeWords (skAddr c 0) (k.toList.take (2 * r)))

/-- The storage after KS(mk, N, R) is recorded in it: entries 0..2N (R160, R164). Words outside the new logical table
keep what they held; no command and no read sees them (10_state.md R24, 20_memory.md R56). -/
def buildTable (mk : Oct Word) (n r : Nat) (m : Memory) : Memory := recordEntries r (2 * n + 1) 0 mk m

/-- KP^(c)(mk), the working register when entry c is recorded (R161). -/
def keyAt (mk : Oct Word) : Nat → Oct Word
  | 0 => mk
  | c + 1 => keyPerm (keyAt mk c) (c + 1)

/-- KSCHED's pseudocode (R164): check first, and on an error nothing below runs. The last permutation's output is
unused (R161), and KR is unspecified after (10_state.md R23). -/
def ksched (s : State) : Except CommandError State :=
  let n := s.cfgSteps
  let r := s.cfgRps
  let cause := configCause s.maxSteps.toNat n r
  if cause ≠ Cause.clear then .error (.configError cause)
  else .ok ((s.withTable (buildTable s.mkey n r s.sk) (cfgWritable s.cfg) s.mkeyDef).discardKr)

/-- All eight words of MK hold a defined value; a configuration that is not accepted uses none (R162; 93 row 2). -/
def State.scheduleDefined (s : State) : Bool :=
  decide (configCause s.maxSteps.toNat s.cfgSteps s.cfgRps ≠ Cause.clear) || s.mkeyDef.every

/-- KSCHED: build the subkey table from MK and CFG (R164). -/
def execKsched (s : State) : Host.Outcome State Fault Refusal := perform s.scheduleDefined ksched s

end Sys2Proof.Machine
end

