-- ==== Sys2Proof/Machine/StepEngine.lean ====
section
/-! DEFINITION. The StepEngine and the commands ENC, DEC, ENCS and DECS (44_step_engine.md). Here sk c w is word w of
subkey entry c, n is N and r is R. -/

namespace Sys2Proof.Machine

/-- The number b of a branch (30_encoding.md R82). -/
def branchNumber : Branch → Nat
  | .b0 => 0
  | .b1 => 1

/-- The subkey entry of branch b in step s: (s-1)*2 + b (R180). -/
def subkeyEntry (s : Nat) (b : Branch) : Nat := (s - 1) * 2 + branchNumber b

/-- Round j of one branch with entry e: XOR words 2j and 2j+1 in, then A (R181). -/
def encRound (sk : Nat → Nat → Word) (e j : Nat) (p : Word × Word) : Word × Word :=
  roundA (p.1 ^^^ sk e (2 * j)) (p.2 ^^^ sk e (2 * j + 1))

/-- Round j undone: A_inverse, then XOR words 2j and 2j+1 out (R183). -/
def decRound (sk : Nat → Nat → Word) (e j : Nat) (p : Word × Word) : Word × Word :=
  ((roundAInv p.1 p.2).1 ^^^ sk e (2 * j), (roundAInv p.1 p.2).2 ^^^ sk e (2 * j + 1))

/-- Rounds 0, 1, ..., r-1 of one branch (R181). -/
def encRounds (sk : Nat → Nat → Word) (e : Nat) : (r : Nat) → Word × Word → Word × Word
  | 0, p => p
  | j + 1, p => encRound sk e j (encRounds sk e j p)

/-- Rounds r-1, ..., 1, 0 of one branch undone (R183). -/
def decRounds (sk : Nat → Nat → Word) (e : Nat) : (r : Nat) → Word × Word → Word × Word
  | 0, p => p
  | j + 1, p => decRounds sk e j (decRound sk e j p)

/-- The rounds of branch b of x in step s, in place. -/
def encBranch (sk : Nat → Nat → Word) (r s : Nat) (b : Branch) (x : Quad Word) : Quad Word :=
  x.setBranch b (encRounds sk (subkeyEntry s b) r (x.branch b))

/-- The rounds of branch b of x in step s undone, in place. -/
def decBranch (sk : Nat → Nat → Word) (r s : Nat) (b : Branch) (x : Quad Word) : Quad Word :=
  x.setBranch b (decRounds sk (subkeyEntry s b) r (x.branch b))

/-- EncStep(x, s): branch 0, branch 1, then L (R181). -/
def encStep (sk : Nat → Nat → Word) (r s : Nat) (x : Quad Word) : Quad Word :=
  linL (encBranch sk r s .b1 (encBranch sk r s .b0 x))

/-- DecStep(x, s): L_inverse, then branch 0 and branch 1 (R183). -/
def decStep (sk : Nat → Nat → Word) (r s : Nat) (x : Quad Word) : Quad Word :=
  decBranch sk r s .b1 (decBranch sk r s .b0 (linLInv x))

/-- Whiten(x): XOR with words 0..3 of entry 2N (R182). -/
def whiten (sk : Nat → Nat → Word) (n : Nat) (x : Quad Word) : Quad Word :=
  ⟨x.w0 ^^^ sk (2 * n) 0, x.w1 ^^^ sk (2 * n) 1, x.w2 ^^^ sk (2 * n) 2, x.w3 ^^^ sk (2 * n) 3⟩

/-- Steps f, f+1, ..., f+count-1 (R186). -/
def encSteps (sk : Nat → Nat → Word) (r f : Nat) : (count : Nat) → Quad Word → Quad Word
  | 0, x => x
  | k + 1, x => encStep sk r (f + k) (encSteps sk r f k x)

/-- Steps f+count-1, ..., f+1, f undone (R186). -/
def decSteps (sk : Nat → Nat → Word) (r f : Nat) : (count : Nat) → Quad Word → Quad Word
  | 0, x => x
  | k + 1, x => decSteps sk r f k (decStep sk r (f + k) x)

/-- EncRange(x, f, t): whitening last, only when t = N (R186). -/
def encRange (sk : Nat → Nat → Word) (n r f t : Nat) (x : Quad Word) : Quad Word :=
  if t = n then whiten sk n (encSteps sk r f (t + 1 - f) x) else encSteps sk r f (t + 1 - f) x

/-- DecRange(x, f, t): whitening undone first, only when t = N (R186). -/
def decRange (sk : Nat → Nat → Word) (n r f t : Nat) (x : Quad Word) : Quad Word :=
  if t = n then decSteps sk r f (t + 1 - f) (whiten sk n x) else decSteps sk r f (t + 1 - f) x

/-- range_ok(f, t) (R185). -/
def rangeOk (n f t : Nat) : Bool := decide (1 ≤ f) && decide (f ≤ t) && decide (t ≤ n)

/-! ## Which words a step command leaves defined (10_state.md R38)

The same rounds, steps and ranges over definedness bits: d says which words are defined, skd which words of the table. A
word XORed or combined with another is defined when both are. Log entry 3. -/

/-- Of one branch after rounds 0..r-1 with entry e. -/
def encPairDef (skd : Nat → Nat → Bool) (e r : Nat) (d : Bool × Bool) : Bool × Bool :=
  (List.range r).foldl (fun d j => roundDef (d.1 && skd e (2 * j), d.2 && skd e (2 * j + 1))) d

/-- Of one branch after rounds r-1..0 with entry e are undone. -/
def decPairDef (skd : Nat → Nat → Bool) (e r : Nat) (d : Bool × Bool) : Bool × Bool :=
  (List.range r).foldr (fun j d => ((roundDef d).1 && skd e (2 * j), (roundDef d).2 && skd e (2 * j + 1))) d

/-- Of EncStep(x, s). -/
def encStepDef (skd : Nat → Nat → Bool) (r s : Nat) (d : Quad Bool) : Quad Bool :=
  linLDef ((d.setBranch .b0 (encPairDef skd (subkeyEntry s .b0) r (d.branch .b0))).setBranch .b1
    (encPairDef skd (subkeyEntry s .b1) r (d.branch .b1)))

/-- Of DecStep(x, s). -/
def decStepDef (skd : Nat → Nat → Bool) (r s : Nat) (d : Quad Bool) : Quad Bool :=
  ((linLInvDef d).setBranch .b0 (decPairDef skd (subkeyEntry s .b0) r ((linLInvDef d).branch .b0))).setBranch .b1
    (decPairDef skd (subkeyEntry s .b1) r ((linLInvDef d).branch .b1))

/-- Of Whiten(x). -/
def whitenDef (skd : Nat → Nat → Bool) (n : Nat) (d : Quad Bool) : Quad Bool :=
  ⟨d.w0 && skd (2 * n) 0, d.w1 && skd (2 * n) 1, d.w2 && skd (2 * n) 2, d.w3 && skd (2 * n) 3⟩

/-- Of EncRange(x, f, t). -/
def encRangeDef (skd : Nat → Nat → Bool) (n r f t : Nat) (d : Quad Bool) : Quad Bool :=
  let y := (List.range' f (t + 1 - f)).foldl (fun d s => encStepDef skd r s d) d
  if t = n then whitenDef skd n y else y

/-- Of DecRange(x, f, t). -/
def decRangeDef (skd : Nat → Nat → Bool) (n r f t : Nat) (d : Quad Bool) : Quad Bool :=
  (List.range' f (t + 1 - f)).foldr (fun s d => decStepDef skd r s d) (if t = n then whitenDef skd n d else d)

/-! ## The data words a step command uses as operands (10_state.md R38; 93 row 2) -/

/-- The first `count` words of subkey entry e hold defined values. -/
def State.entryDefined (s : State) (e count : Nat) : Bool := (List.range count).all (s.skWordDef e)

/-- ST, the entries of steps f..t, and the whitening's words when t = N, hold defined values (R180, R182, R186). -/
def State.rangeDefined (s : State) (f t : Nat) : Bool :=
  s.stDef.every &&
  (List.range' f (t + 1 - f)).all (fun i =>
    s.entryDefined (subkeyEntry i .b0) (2 * s.tblRps) && s.entryDefined (subkeyEntry i .b1) (2 * s.tblRps)) &&
  (decide (t ≠ s.tblSteps) || s.entryDefined (2 * s.tblSteps) 4)

/-- The operands of ENC and DEC are defined; without a table they use none (R190, R191). -/
def State.fullDefined (s : State) : Bool := !s.tblValid || s.rangeDefined 1 s.tblSteps

/-- The operands of ENCS and DECS are defined; without a table, or on a bad range, they use none (R192, R193). -/
def State.partialDefined (s : State) : Bool :=
  !s.tblValid || !rangeOk s.tblSteps s.fromStep s.toStep || s.rangeDefined s.fromStep s.toStep

/-! ## The commands -/

/-- ST <- EncRange(ST, f, t) with the table and its configuration (R186, R190). -/
def State.encrypt (s : State) (f t : Nat) : State :=
  s.withSt (encRange s.skWord s.tblSteps s.tblRps f t s.st)
    (encRangeDef s.skWordDef s.tblSteps s.tblRps f t s.stDef)

/-- ST <- DecRange(ST, f, t) with the table and its configuration (R186, R191). -/
def State.decrypt (s : State) (f t : Nat) : State :=
  s.withSt (decRange s.skWord s.tblSteps s.tblRps f t s.st)
    (decRangeDef s.skWordDef s.tblSteps s.tblRps f t s.stDef)

/-- The full range of a step command: NoSchedule without a table, else steps 1..N (R190, R191). -/
def fullRange (run : State → Nat → Nat → State) (s : State) : Except CommandError State :=
  if s.tblValid = false then .error .noSchedule else .ok (run s 1 s.tblSteps)

/-- The partial range of a step command: NoSchedule before RangeError, else the steps of RANGE (R192, R193;
60_exceptions.md R236). -/
def partialRange (run : State → Nat → Nat → State) (s : State) : Except CommandError State :=
  if s.tblValid = false then .error .noSchedule
  else if rangeOk s.tblSteps s.fromStep s.toStep = false then .error .rangeError
  else .ok (run s s.fromStep s.toStep)

/-- ENC: full encryption of ST (R190). -/
def execEnc (s : State) : Host.Outcome State Fault Refusal := perform s.fullDefined (fullRange State.encrypt) s

/-- DEC: full decryption of ST (R191). -/
def execDec (s : State) : Host.Outcome State Fault Refusal := perform s.fullDefined (fullRange State.decrypt) s

/-- ENCS: partial encryption over RANGE (R192). -/
def execEncs (s : State) : Host.Outcome State Fault Refusal := perform s.partialDefined (partialRange State.encrypt) s

/-- DECS: partial decryption over RANGE (R193). -/
def execDecs (s : State) : Host.Outcome State Fault Refusal := perform s.partialDefined (partialRange State.decrypt) s

end Sys2Proof.Machine
end

