-- ==== Sys2Proof/Machine/Dispatch.lean ====
section
/-! DEFINITION. The dispatch of a command to its meaning: the one atomic step of its completion (10_state.md R33). -/

namespace Sys2Proof.Machine

def exec (i : Instr) (s : State) : Host.Outcome State Fault Refusal :=
  match i with
  | .nop => Sys2Proof.Machine.execNop s
  | .arx b => Sys2Proof.Machine.execArx b s
  | .arxi b => Sys2Proof.Machine.execArxi b s
  | .lin => Sys2Proof.Machine.execLin s
  | .lini => Sys2Proof.Machine.execLini s
  | .kload => Sys2Proof.Machine.execKload s
  | .kperm => Sys2Proof.Machine.execKperm s
  | .ksched => Sys2Proof.Machine.execKsched s
  | .enc => Sys2Proof.Machine.execEnc s
  | .dec => Sys2Proof.Machine.execDec s
  | .encs => Sys2Proof.Machine.execEncs s
  | .decs => Sys2Proof.Machine.execDecs s
  | .illegal w => Sys2Proof.Machine.execIllegal w s

end Sys2Proof.Machine
end

