-- ==== Sys2Proof/WellFormed.lean ====
section
/-! DEFINITION. Which terms of Instr stand for a command word. Only the reserved row has a check: its word must be
one that 30_encoding.md R86 calls reserved. -/

namespace Sys2Proof

/-- R86: OP is one of the reserved codes 0xC..0xF. -/
def reservedOpcode (w : Word) : Bool := 0xC ≤ w.toNat % 16

/-- R86: a nonzero Z field, bits [15:5]. -/
def nonzeroZ (w : Word) : Bool := w.toNat / 32 ≠ 0

/-- R86: B = 1 with an opcode other than ARX (0x1) or ARXI (0x2). -/
def strayBranchBit (w : Word) : Bool :=
  w.toNat / 16 % 2 = 1 && w.toNat % 16 ≠ 0x1 && w.toNat % 16 ≠ 0x2

/-- The words that decode to Illegal (30_encoding.md R86). -/
def reservedWord (w : Word) : Bool := reservedOpcode w || nonzeroZ w || strayBranchBit w

/-- An instruction that some command word stands for. -/
def Instr.wellFormed : Instr → Bool
  | .illegal w => reservedWord w
  | _ => true

end Sys2Proof
end

