-- ==== Sys2Proof/Decode.lean ====
section
/-! DEFINITION. The decoder, total on all 65536 command words (30_encoding.md R85), the encoder, written from the
opcode map (R81), and the host's numbered reading of one word. -/

namespace Sys2Proof

/-- OP, bits [3:0] of the command word (30_encoding.md R80). -/
def opField (v : Word) : BitVec 4 := v.extractLsb' 0 4

/-- B, bit 4 of the command word (30_encoding.md R80, R82). -/
def bField (v : Word) : Branch := if v.getLsbD 4 then .b1 else .b0

/-- Z, bits [15:5] of the command word (30_encoding.md R80). -/
def zField (v : Word) : BitVec 11 := v.extractLsb' 5 11

/-- The opcodes that take no branch, with B = 0 (30_encoding.md R81). The reserved codes 0xC..0xF, and the two
that take a branch, are none of them. -/
def plainOpcode (op : BitVec 4) : Option Instr :=
  match op.toNat with
  | 0x0 => some .nop
  | 0x3 => some .lin
  | 0x4 => some .lini
  | 0x5 => some .kload
  | 0x6 => some .kperm
  | 0x7 => some .ksched
  | 0x8 => some .enc
  | 0x9 => some .dec
  | 0xA => some .encs
  | 0xB => some .decs
  | _ => none

/-- R85's decode: a word is one command, and a word the table does not list is rejected by name, as `illegal`. -/
def decode (v : Word) : Instr :=
  if zField v ≠ 0 then .illegal v
  else if opField v = 0x1 then .arx (bField v)
  else if opField v = 0x2 then .arxi (bField v)
  else if bField v = .b1 then .illegal v
  else (plainOpcode (opField v)).getD (.illegal v)

/-- The value of the B field for a branch (30_encoding.md R82). -/
def Branch.bit : Branch → Word
  | .b0 => 0x0000
  | .b1 => 0x0010

/-- The command word of an instruction (30_encoding.md R81). -/
def encode : Instr → Word
  | .nop => 0x0000
  | .arx b => 0x0001 ||| b.bit
  | .arxi b => 0x0002 ||| b.bit
  | .lin => 0x0003
  | .lini => 0x0004
  | .kload => 0x0005
  | .kperm => 0x0006
  | .ksched => 0x0007
  | .enc => 0x0008
  | .dec => 0x0009
  | .encs => 0x000A
  | .decs => 0x000B
  | .illegal w => w

/-- The instruction read from a command word whose bits, numbered as spec/opcode_table.json numbers them, are w.
A command is exactly one 16-bit word (30_encoding.md R80), so more than 16 bits, or a w that does not fit in nbits,
is no command word. Log entry 16. -/
def decodeTableWord (nbits w : Nat) : Option Instr :=
  if nbits ≤ 16 ∧ w < 2 ^ nbits then some (decode (BitVec.ofNat 16 w)) else none

end Sys2Proof
end

