-- ==== Sys2Proof/Machine/HostPort.lean ====
section
/-! DEFINITION. The host register space: the map, reads, writes, and the reset input (20_memory.md R52 to R57,
70_reset_and_hazards.md R270). -/

namespace Sys2Proof.Machine

/-- What a word address names (20_memory.md R52). -/
inductive Reg where
  | cmd
  | status
  | cfg
  | range
  | ridx
  | tblCfg
  | param
  | mkey (i : Fin 8)
  | st (i : Fin 4)
  | kr (i : Fin 8)
  | sk (c w : Nat)
  | reserved
  deriving DecidableEq, Repr

/-- The register map, and R53's decoding of a window address. -/
def locate (addr : Addr) : Reg :=
  let a := addr.toNat
  if a = 0x000 then .cmd
  else if a = 0x001 then .status
  else if a = 0x002 then .cfg
  else if a = 0x003 then .range
  else if a = 0x004 then .ridx
  else if a = 0x005 then .tblCfg
  else if a = 0x006 then .param
  else if a = 0x007 then .reserved
  else if a < 0x010 then .mkey (Fin.ofNat 8 (a - 0x008))
  else if a < 0x014 then .st (Fin.ofNat 4 (a - 0x010))
  else if a < 0x018 then .reserved
  else if a < 0x020 then .kr (Fin.ofNat 8 (a - 0x018))
  else if a < 0x100 then .reserved
  else if a < 0x10F8 then .sk ((a - 0x100) >>> 3) ((a - 0x100) &&& 7)
  else .reserved

/-- The address of a register (20_memory.md R52, R53). A reserved address has no name; 0x007 stands for one. -/
def Reg.address : Reg → Addr
  | .cmd => 0x000
  | .status => 0x001
  | .cfg => 0x002
  | .range => 0x003
  | .ridx => 0x004
  | .tblCfg => 0x005
  | .param => 0x006
  | .reserved => 0x007
  | .mkey i => BitVec.ofNat 13 (0x008 + i.val)
  | .st i => BitVec.ofNat 13 (0x010 + i.val)
  | .kr i => BitVec.ofNat 13 (0x018 + i.val)
  | .sk c w => BitVec.ofNat 13 (skAddr c w)

/-- A read of SK[c][w] through the window while idle; none where the value is unspecified: a word of the table computed
from an unwritten one, and any word without a table (20_memory.md R56; 10_state.md R38). -/
def State.peekWindow (s : State) (c w : Nat) : Option Word :=
  if s.tblValid then
    if c ≤ 2 * s.tblSteps ∧ w < 2 * s.tblRps then (if s.skWordDef c w then some (s.skWord c w) else none)
    else some 0x0000
  else if c ≤ 2 * s.maxSteps.toNat then none
  else some 0x0000

/-- The value of a register while idle; none where it is unspecified (20_memory.md R54, R55, R56; 10_state.md R38). -/
def State.peekIdle (s : State) : Reg → Option Word
  | .cmd => some 0x0000
  | .status => some s.status
  | .cfg => some s.cfg
  | .range => some s.range
  | .ridx => some s.ridx
  | .tblCfg => some s.tblCfg
  | .param => some s.param
  | .mkey i => if s.mkeyDef.get i then some (s.mkey.get i) else none
  | .st i => if s.stDef.get i then some (s.st.get i) else none
  | .kr i => if s.krDef.get i then some (s.kr.get i) else none
  | .sk c w => s.peekWindow c w
  | .reserved => some 0x0000

/-- The value of a register while a command is in flight; none where it is unspecified (20_memory.md R57). -/
def State.peekBusy (s : State) : Reg → Option Word
  | .status => some s.status
  | .param => some s.param
  | .cmd => some 0x0000
  | .reserved => some 0x0000
  | .cfg => none
  | .range => none
  | .ridx => none
  | .tblCfg => none
  | .mkey _ => none
  | .st _ => none
  | .kr _ => none
  | .sk _ _ => none

/-- What HostRead(a) returns; none where the value is unspecified (20_memory.md R55 to R57). -/
def State.peek (s : State) (a : Addr) : Option Word :=
  if s.busy then s.peekBusy (locate a) else s.peekIdle (locate a)

/-- HostRead(a): the word goes to the host; nothing else of the block changes (20_memory.md R61). An unspecified value
is a free value of its own at each read (R61; 93 row 4), and marks the run faulted when the block is idle, the word then
holding no defined value (10_state.md R38; 93 rows 1 and 9). Log entries 2, 8 and 20. -/
def State.hostRead (s : State) (a : Addr) : State :=
  match s.peek a with
  | some v => { s with replies := s.replies ++ [v] }
  | none =>
    ({ s with replies := s.replies ++ [Config.freeWord s.draws], draws := s.draws + 1 } : State).noteUse s.busy

/-- A write to a register while idle (20_memory.md R54, R55; 10_state.md R26 to R33). -/
def State.store (s : State) (r : Reg) (v : Word) : State :=
  match r with
  | .cmd => s.issue v
  | .cfg => { s with cfg := cfgWritable v }
  | .range => { s with range := v }
  | .ridx => { s with ridx := v }
  | .mkey i => { s with mkey := s.mkey.set i v, mkeyDef := s.mkeyDef.set i true }
  | .st i => { s with st := s.st.set i v, stDef := s.stDef.set i true }
  | .status => s
  | .tblCfg => s
  | .param => s
  | .kr _ => s
  | .sk _ _ => s
  | .reserved => s

/-- HostWrite(a, v): ignored while BUSY = 1 (20_memory.md R57). -/
def State.hostWrite (s : State) (a : Addr) (v : Word) : State :=
  if s.busy then s else s.store (locate a) v

/-- The reset input: every piece of the block's state takes its reset value, and a command in flight is abandoned
(70_reset_and_hazards.md R270). MAX_STEPS is a constant of the block (10_state.md R31); what is outside the block,
the count of free values and the run's mark go on. Log entry 13. -/
def State.applyReset (s : State) : State :=
  { State.reset with
    maxSteps := s.maxSteps, draws := s.draws, faulted := s.faulted, agenda := s.agenda, replies := s.replies }

/-- A host access (20_memory.md R51). -/
def State.access (s : State) : HostAccess → State
  | .read a => s.hostRead a
  | .write a v => s.hostWrite a v

/-- The oldest step to come is taken off. -/
def State.withAgenda (s : State) (rest : List Event) : State := { s with agenda := rest }

end Sys2Proof.Machine
end

