-- ==== Sys2Proof/Machine/Fetch.lean ====
section
/-! DEFINITION. What stands in for fetching: the command in flight is the word in CUR (10_state.md R33, R35). -/

namespace Sys2Proof.Machine

/-- The command in flight (10_state.md R33; 30_encoding.md R85). -/
def State.command (s : State) : Instr := decode s.cur

/-- The state in which the command word v has just been issued and the sequencer moves next (10_state.md R33). An empty
agenda already gives the sequencer the next step; a nonempty one gets its turn in front. Log entry 11. -/
def State.placeCommand (s : State) (v : Word) : State :=
  (s.issue v).withAgenda (if s.agenda = [] then [] else .sequencer :: s.agenda)

end Sys2Proof.Machine
end

