-- ==== Sys2Proof/Machine/Step.lean ====
section
/-! DEFINITION. One step of the total order of 20_memory.md R62: the oldest event of the agenda, or, when the agenda is
empty, the completion of the command in flight; an idle block with nothing to come keeps its state
(60_exceptions.md R245). Log entry 10. -/

namespace Sys2Proof.Machine

/-- The sequencer's turn: the command in flight completes; with none in flight nothing happens (10_state.md R33). -/
def sequencerTurn (s : State) : Host.Outcome State Fault Refusal :=
  if s.busy then exec s.command s else .next s

/-- One step. -/
def step (s : State) : Host.Outcome State Fault Refusal :=
  match s.agenda with
  | [] => sequencerTurn s
  | .sequencer :: rest => sequencerTurn (s.withAgenda rest)
  | .host x :: rest => .next ((s.withAgenda rest).access x)
  | .reset :: rest => .next (s.withAgenda rest).applyReset

/-- s with the instruction whose bits are w issued, so that the very next step runs it. A word of more bits than a
command has keeps its low 16. Log entry 11. -/
def State.withFetchWord (s : State) (nbits w : Nat) : State :=
  s.placeCommand (BitVec.ofNat 16 (w % 2 ^ nbits))

end Sys2Proof.Machine
end

