-- ==== Sys2Proof/Machine/HostScript.lean ====
section
/-! DEFINITION. The host-script statements and pseudo-instructions of 30_encoding.md R87 and R88 that act on the block,
each expanded into the events it puts on the agenda. Labels, goto, if and expect are control flow and checks of the
host's own, not block operations (R87). Log entry 15. -/

namespace Sys2Proof.Machine

/-- `write NAME, value` (R87). -/
def scriptWrite (r : Reg) (v : Word) : List Event := [.host (.write r.address v)]

/-- `read NAME -> var` (R87); the word goes to the replies. -/
def scriptRead (r : Reg) : List Event := [.host (.read r.address)]

/-- `wait` (R87), in a run in which `polls` reads of STATUS find BUSY = 1 before the command completes: those reads,
the completion, and the read that finds BUSY = 0. -/
def scriptWait (polls : Nat) : List Event := (List.replicate polls (scriptRead .status)).flatten ++ .sequencer :: scriptRead .status

/-- `issue MNEMONIC` (R87): the command word without the wait. -/
def scriptIssue (i : Instr) : List Event := scriptWrite .cmd (encode i)

/-- A command mnemonic (R87): the command word, then wait. -/
def scriptCommand (polls : Nat) (i : Instr) : List Event := scriptIssue i ++ scriptWait polls

/-- `SETCFG n, r` (R88). -/
def scriptSetCfg (n r : Word) : List Event := scriptWrite .cfg ((r <<< 8) ||| n)

/-- `SETKEY k0, ..., k7` (R88). -/
def scriptSetKey (k : Oct Word) : List Event :=
  scriptWrite (.mkey 0) k.w0 ++ scriptWrite (.mkey 1) k.w1 ++ scriptWrite (.mkey 2) k.w2 ++ scriptWrite (.mkey 3) k.w3 ++
  scriptWrite (.mkey 4) k.w4 ++ scriptWrite (.mkey 5) k.w5 ++ scriptWrite (.mkey 6) k.w6 ++ scriptWrite (.mkey 7) k.w7

/-- `SETBLK p0, p1, p2, p3` (R88). -/
def scriptSetBlk (p : Quad Word) : List Event :=
  scriptWrite (.st 0) p.w0 ++ scriptWrite (.st 1) p.w1 ++ scriptWrite (.st 2) p.w2 ++ scriptWrite (.st 3) p.w3

/-- `GETBLK -> v0, v1, v2, v3` (R88). -/
def scriptGetBlk : List Event := scriptRead (.st 0) ++ scriptRead (.st 1) ++ scriptRead (.st 2) ++ scriptRead (.st 3)

/-- `ENCS f, t` (R88). -/
def scriptEncs (polls : Nat) (f t : Word) : List Event := scriptWrite .range ((t <<< 8) ||| f) ++ scriptCommand polls .encs

/-- `DECS f, t` (R88). -/
def scriptDecs (polls : Nat) (f t : Word) : List Event := scriptWrite .range ((t <<< 8) ||| f) ++ scriptCommand polls .decs

/-- `KPERM i` (R88). -/
def scriptKperm (polls : Nat) (i : Word) : List Event := scriptWrite .ridx i ++ scriptCommand polls .kperm

/-- `CHECK` (R88): the read of STATUS; the expect is the host's own. -/
def scriptCheck : List Event := scriptRead .status

end Sys2Proof.Machine
end

