-- ==== Sys2Proof/Safety.lean ====
section
/-! DEFINITION. What claims about the machine are said in: its invariant, when a command's operands are defined
(10_state.md R38, 70_reset_and_hazards.md R272, R273), the hazards (R280 to R284), the end of a run (R292), and when two
states agree on everything defined. -/

namespace Sys2Proof.Machine

/-- What holds at reset and after every step. -/
structure State.Inv (s : State) : Prop where
  /-- CFG[15:11] reads 0 (10_state.md R27). -/
  cfgReserved : s.cfg.toNat < 0x800
  /-- TBL_CFG[15:11] reads 0 (10_state.md R30). -/
  tblCfgReserved : s.tblCfg.toNat < 0x800
  /-- MAX_STEPS is at least 1 (00_scope.md R8); at most 255 is its width. -/
  maxStepsPos : 1 ≤ s.maxSteps.toNat
  /-- The storage keeps its canonical form. -/
  storageWf : s.sk.wf = true
  /-- The storage lists only words of its 2*MAX_STEPS+1 entries (10_state.md R24). -/
  storageWithin : s.sk.within (skAddr 0 0) s.skEnd = true
  /-- A valid table has a configuration KSCHED accepts (00_scope.md R9, 10_state.md R25). -/
  tableShape : s.tblValid = true → 1 ≤ s.tblSteps ∧ s.tblSteps ≤ s.maxSteps.toNat ∧ 2 ≤ s.tblRps ∧ s.tblRps ≤ 4
  /-- Without a valid table nothing has written SK or TBL_CFG since reset (10_state.md R24, R25, R30). -/
  noTable : s.tblValid = false → s.sk = [] ∧ s.tblCfg = 0 ∧ s.skDef = Oct.all8 false
  /-- While a command is in flight ERR is clear (10_state.md R32). -/
  busyClear : s.busy = true → s.err = .none
  /-- CAUSE is 0 unless ERR = 1 (10_state.md R32, 60_exceptions.md R230). -/
  causeOnlyConfig : s.err ≠ .configError → s.cause = Cause.clear
  /-- A ConfigError has a cause (43_key_schedule.md R162). -/
  configHasCause : s.err = .configError → s.cause ≠ Cause.clear
  /-- RPS_TOO_LARGE and RPS_TOO_SMALL never hold together (60_exceptions.md R231). -/
  rpsExclusive : ¬(s.cause.rpsTooLarge = true ∧ s.cause.rpsTooSmall = true)
  /-- STEPS_ZERO and CAPACITY never hold together (60_exceptions.md R231). -/
  stepsExclusive : ¬(s.cause.stepsZero = true ∧ s.cause.capacity = true)

/-- Every data word the command would use as an operand is defined; a command that raises an error uses none
(10_state.md R38; 70_reset_and_hazards.md R272, R273; 93 row 2). -/
def State.operandsDefined (s : State) : Instr → Bool
  | .nop => true
  | .arx b => s.branchDefined b
  | .arxi b => s.branchDefined b
  | .lin => s.stDef.every
  | .lini => s.stDef.every
  | .kload => s.mkeyDef.every
  | .kperm => s.krDef.every
  | .ksched => s.scheduleDefined
  | .enc => s.fullDefined
  | .dec => s.fullDefined
  | .encs => s.partialDefined
  | .decs => s.partialDefined
  | .illegal _ => true

/-- The lost-write hazard: a host write that meets BUSY = 1 (70_reset_and_hazards.md R280). -/
def State.lostWrite (s : State) : HostAccess → Bool
  | .write _ _ => s.busy
  | .read _ => false

/-- A host read that returns an unspecified value: the early-read hazard while BUSY = 1, a word never written
otherwise (70_reset_and_hazards.md R281; 10_state.md R38). -/
def State.unspecifiedRead (s : State) : HostAccess → Bool
  | .read a => decide (s.peek a = none)
  | .write _ _ => false

/-- The stale-table hazard, as far as the configuration shows it: CFG is not what the table was built for
(70_reset_and_hazards.md R283). -/
def State.staleConfiguration (s : State) : Bool := s.tblValid && decide (s.cfg ≠ s.tblCfg)

/-- The completion of the command in flight, if there is one, uses only defined words. -/
def State.safeTurn (s : State) : Bool := !s.busy || s.operandsDefined s.command

/-- The next step loses no write, returns no unspecified value and uses no undefined word: the run that 93's rows 1, 2,
4 and 9 do not mark. -/
def State.safeStep (s : State) : Bool :=
  match s.agenda with
  | [] => s.safeTurn
  | .sequencer :: _ => s.safeTurn
  | .host x :: _ => !s.lostWrite x && !s.unspecifiedRead x
  | .reset :: _ => true

/-- A host program's run has ended: nothing is to come and no command is in flight (70_reset_and_hazards.md R292).
DESIGN CHOICE: R292 says nothing of a reset during the run; here a reset or an idle sequencer's turn still on the agenda
after the host's last statement belongs to the run, which ends after it. Log entry 21. -/
def State.runEnded (s : State) : Bool := decide (s.agenda = []) && !s.busy

/-- The run is final: it has ended and was never marked faulted (93: a faulted run is "never final"). Log entry 20. -/
def State.runFinal (s : State) : Bool := s.runEnded && !s.faulted

/-- The two states are alike but for data words that hold no defined value (10_state.md R38): the words that are
defined are equal, those of a valid table's logical entries too (10_state.md R24), and so is everything else. -/
structure AgreeOnDefined (s t : State) : Prop where
  st : ∀ i, s.stDef.get i = true → s.st.get i = t.st.get i
  mkey : ∀ i, s.mkeyDef.get i = true → s.mkey.get i = t.mkey.get i
  kr : ∀ i, s.krDef.get i = true → s.kr.get i = t.kr.get i
  sk : s.tblValid = true →
    ∀ c w, c ≤ 2 * s.tblSteps → w < 2 * s.tblRps → s.skWordDef c w = true → s.skWord c w = t.skWord c w
  rest : t = { s with st := t.st, mkey := t.mkey, kr := t.kr, sk := t.sk }

end Sys2Proof.Machine
end

