-- ==== Sys2Proof/Certificates/Slice0/Obligations.lean ====
section
/-! DEFINITION. The statements for the provers: what the numbered rules of spec/ say the block does. -/

open Sys2Proof Sys2Proof.Machine

/-! ## Encoding (30_encoding.md) -/

/-- R80, R81, R85: no bit of an encoding is dropped, for every well-formed instruction. -/
def Obligations.DecodeOfEncode : Prop :=
  ∀ i : Instr, i.wellFormed = true → decode (encode i) = i

/-- R80, R85: every one of the 65536 words has one reading, and that reading's word is it. -/
def Obligations.EncodeOfDecode : Prop :=
  ∀ v : Word, encode (decode v) = v ∧ (decode v).wellFormed = true

/-- R85: exactly the 14 words of the opcode map decode to a command; every other word decodes to Illegal. -/
def Obligations.FourteenWordsAreCommands : Prop :=
  ∀ v : Word,
    decode v = .illegal v ↔
      v ∉ ([0x0000, 0x0001, 0x0011, 0x0002, 0x0012, 0x0003, 0x0004, 0x0005, 0x0006, 0x0007, 0x0008, 0x0009, 0x000A,
        0x000B] : List Word)

/-- R81: the words of the opcode map, and some of 95_test_vectors.md 2.6's illegal words. -/
def Obligations.OpcodeMapWords : Prop :=
  decode 0x0000 = .nop ∧ decode 0x0001 = .arx .b0 ∧ decode 0x0011 = .arx .b1 ∧ decode 0x0002 = .arxi .b0 ∧
  decode 0x0012 = .arxi .b1 ∧ decode 0x0003 = .lin ∧ decode 0x0004 = .lini ∧ decode 0x0005 = .kload ∧
  decode 0x0006 = .kperm ∧ decode 0x0007 = .ksched ∧ decode 0x0008 = .enc ∧ decode 0x0009 = .dec ∧
  decode 0x000A = .encs ∧ decode 0x000B = .decs ∧ decode 0x000C = .illegal 0x000C ∧ decode 0x0013 = .illegal 0x0013 ∧
  decode 0x0020 = .illegal 0x0020

/-- R84: the operands are the named bit fields, read as unsigned integers. -/
def Obligations.OperandFieldsAreTheNamedBits : Prop :=
  ∀ s : State,
    s.fromStep = s.range.toNat % 256 ∧ s.toStep = s.range.toNat / 256 ∧ s.roundIndex = s.ridx.toNat ∧
    s.cfgSteps = s.cfg.toNat % 256 ∧ s.cfgRps = s.cfg.toNat / 256 % 8 ∧
    s.tblSteps = s.tblCfg.toNat % 256 ∧ s.tblRps = s.tblCfg.toNat / 256 % 8

/-! ## The units -/

/-- R11: the rotations are the shifts mod 2^16 the spec writes, and rotr16 undoes rotl16. -/
def Obligations.RotationsAreCircular : Prop :=
  ∀ (x : Word) (n : Nat), 1 ≤ n → n ≤ 15 →
    (rotl16 x n).toNat = (x.toNat <<< n ||| x.toNat >>> (16 - n)) % 2 ^ 16 ∧
    (rotr16 x n).toNat = (x.toNat <<< (16 - n) ||| x.toNat >>> n) % 2 ^ 16 ∧
    rotr16 (rotl16 x n) n = x

/-- R102: A and A_inverse undo each other, both ways. -/
def Obligations.RoundFunctionInverseLaw : Prop :=
  ∀ l r : Word,
    roundAInv (roundA l r).1 (roundA l r).2 = (l, r) ∧ roundA (roundAInv l r).1 (roundAInv l r).2 = (l, r)

/-- R122: L and L_inverse undo each other, both ways. -/
def Obligations.LinearLayerInverseLaw : Prop :=
  ∀ x : Quad Word, linLInv (linL x) = x ∧ linL (linLInv x) = x

/-- R123: L and L_inverse are linear over GF(2); L is not an involution, and L_inverse is not L. -/
def Obligations.LinearLayerIsLinear : Prop :=
  (∀ x y : Quad Word,
    linL ⟨x.w0 ^^^ y.w0, x.w1 ^^^ y.w1, x.w2 ^^^ y.w2, x.w3 ^^^ y.w3⟩ =
      ⟨(linL x).w0 ^^^ (linL y).w0, (linL x).w1 ^^^ (linL y).w1, (linL x).w2 ^^^ (linL y).w2,
        (linL x).w3 ^^^ (linL y).w3⟩ ∧
    linLInv ⟨x.w0 ^^^ y.w0, x.w1 ^^^ y.w1, x.w2 ^^^ y.w2, x.w3 ^^^ y.w3⟩ =
      ⟨(linLInv x).w0 ^^^ (linLInv y).w0, (linLInv x).w1 ^^^ (linLInv y).w1, (linLInv x).w2 ^^^ (linLInv y).w2,
        (linLInv x).w3 ^^^ (linLInv y).w3⟩) ∧
  linL ⟨0, 0, 0, 0⟩ = ⟨0, 0, 0, 0⟩ ∧
  linL ⟨0x0001, 0, 0, 0⟩ = ⟨0x0101, 0x0100, 0x0001, 0x0000⟩ ∧
  linL (linL ⟨0x0001, 0, 0, 0⟩) = ⟨0x0000, 0x0000, 0x0101, 0x0100⟩ ∧
  linLInv ⟨0x0001, 0, 0, 0⟩ = ⟨0x0000, 0x0000, 0x0001, 0x0000⟩

/-- R141: two round indices differ in effect in word 1 alone, and not at all exactly when they are equal mod 2^16. -/
def Obligations.KeyPermutationIndexLaw : Prop :=
  ∀ (k : Oct Word) (c d : Nat),
    (keyPerm k c).w1 = k.w7 + BitVec.ofNat 16 c ∧
    (∀ i : Fin 8, i ≠ 1 → (keyPerm k c).get i = (keyPerm k d).get i) ∧
    (keyPerm k c = keyPerm k d ↔ c % 2 ^ 16 = d % 2 ^ 16)

/-- R142: for each round index KP is a bijection of the register values. -/
def Obligations.KeyPermutationIsBijective : Prop :=
  ∀ c : Nat, Function.Bijective fun k : Oct Word => keyPerm k c

/-- R180, R181, R183: a step's rounds run over r = 0..R-1, and R-1..0 to undo it, on each branch with its entry
(s-1)*2 + b; L comes last, and L_inverse first to undo it. -/
def Obligations.StepsAreTheLoops : Prop :=
  ∀ (sk : Nat → Nat → Word) (r s : Nat) (x : Quad Word),
    encStep sk r s x =
      linL
        ((x.setBranch .b0
            ((List.range r).foldl
              (fun p j => roundA (p.1 ^^^ sk ((s - 1) * 2) (2 * j)) (p.2 ^^^ sk ((s - 1) * 2) (2 * j + 1)))
              (x.branch .b0))).setBranch .b1
          ((List.range r).foldl
            (fun p j => roundA (p.1 ^^^ sk ((s - 1) * 2 + 1) (2 * j)) (p.2 ^^^ sk ((s - 1) * 2 + 1) (2 * j + 1)))
            (x.branch .b1))) ∧
    decStep sk r s x =
      (((linLInv x).setBranch .b0
          ((List.range r).reverse.foldl
            (fun p j => ((roundAInv p.1 p.2).1 ^^^ sk ((s - 1) * 2) (2 * j),
              (roundAInv p.1 p.2).2 ^^^ sk ((s - 1) * 2) (2 * j + 1)))
            ((linLInv x).branch .b0))).setBranch .b1
        ((List.range r).reverse.foldl
          (fun p j => ((roundAInv p.1 p.2).1 ^^^ sk ((s - 1) * 2 + 1) (2 * j),
            (roundAInv p.1 p.2).2 ^^^ sk ((s - 1) * 2 + 1) (2 * j + 1)))
          ((linLInv x).branch .b1)))

/-- R182, R186: the ranges run over s = f..t, and t..f to undo them; the whitening XORs word i of entry 2N into word i,
is its own inverse, and depends on t = N alone. -/
def Obligations.RangesAreTheLoops : Prop :=
  ∀ (sk : Nat → Nat → Word) (n r f t : Nat) (x : Quad Word),
    encRange sk n r f t x =
      (if t = n then whiten sk n ((List.range' f (t + 1 - f)).foldl (fun y s => encStep sk r s y) x)
        else (List.range' f (t + 1 - f)).foldl (fun y s => encStep sk r s y) x) ∧
    decRange sk n r f t x =
      (List.range' f (t + 1 - f)).reverse.foldl (fun y s => decStep sk r s y) (if t = n then whiten sk n x else x) ∧
    (∀ i : Fin 4, (whiten sk n x).get i = x.get i ^^^ sk (2 * n) i.val) ∧
    whiten sk n (whiten sk n x) = x

/-- R187: the two ranges undo each other, whatever the table and the range. -/
def Obligations.RangeRoundTrip : Prop :=
  ∀ (sk : Nat → Nat → Word) (n r f t : Nat) (x : Quad Word),
    decRange sk n r f t (encRange sk n r f t x) = x ∧ encRange sk n r f t (decRange sk n r f t x) = x

/-- R188: a range is its two contiguous parts, one after the other. -/
def Obligations.RangeComposition : Prop :=
  ∀ (sk : Nat → Nat → Word) (n r a b c : Nat) (x : Quad Word), 1 ≤ a → a ≤ b → b < c → c ≤ n →
    encRange sk n r a c x = encRange sk n r (b + 1) c (encRange sk n r a b x) ∧
    decRange sk n r a c x = decRange sk n r a b (decRange sk n r (b + 1) c x)

/-- R184: each branch's work reads its own entry only and leaves the other branch, so the order of the branches does
not matter. -/
def Obligations.BranchOrderDoesNotMatter : Prop :=
  ∀ (sk : Nat → Nat → Word) (r s : Nat) (x : Quad Word),
    encStep sk r s x = linL (encBranch sk r s .b0 (encBranch sk r s .b1 x)) ∧
    decStep sk r s x = decBranch sk r s .b0 (decBranch sk r s .b1 (linLInv x)) ∧
    (∀ (b : Branch) (sk' : Nat → Nat → Word), (∀ w, sk (subkeyEntry s b) w = sk' (subkeyEntry s b) w) →
      encBranch sk r s b x = encBranch sk' r s b x ∧ decBranch sk r s b x = decBranch sk' r s b x) ∧
    (∀ b : Branch, (encBranch sk r s b x).branch (otherBranch b) = x.branch (otherBranch b) ∧
      (decBranch sk r s b x).branch (otherBranch b) = x.branch (otherBranch b))

/-- R163: the table is a function of the key and the configuration, and two tables of one key and one step count agree
on their common words, whatever the storage held before. -/
def Obligations.SchedulesAgreeOnCommonWords : Prop :=
  ∀ (mk : Oct Word) (n r r' c : Nat) (w : Fin 8) (m m' : Memory), m.wf = true → m'.wf = true →
    c ≤ 2 * n → w.val < 2 * min r r' →
    (buildTable mk n r m).read (skAddr c w.val) = (buildTable mk n r' m').read (skAddr c w.val)

/-! ## The commands: where each completes, and what it leaves

What a command does to the definedness bits and to the run's mark, the fields of log entries 3 and 20, is stated by
DefinednessIsPerWord and UndefinedUseMarksTheRun; the statements here leave open those of them that the command may change
(but for KR's after KLOAD, which R143 itself gives). -/

/-- R220: NOP clears ERR and CAUSE and changes nothing else; the words beside it are illegal. -/
def Obligations.NopClearsTheErrorFields : Prop :=
  decode 0x0000 = .nop ∧ (∀ v : Word, v ≠ 0 → opField v = 0 → decode v = .illegal v) ∧
  ∀ s : State, exec .nop s = .next { s with busy := false, err := .none, cause := ⟨false, false, false, false⟩ }

/-- R104: ARX b replaces branch b by A of it, and leaves the rest. -/
def Obligations.ArxAppliesTheRoundFunction : Prop :=
  decode 0x0001 = .arx .b0 ∧ decode 0x0011 = .arx .b1 ∧
  (∀ v : Word, opField v = 0x1 → zField v ≠ 0 → decode v = .illegal v) ∧
  ∀ (b : Branch) (s : State), ∃ t, exec (.arx b) s = .next t ∧
    t.st.branch b =
      (rotr16 (s.st.branch b).1 7 + (s.st.branch b).2,
        rotl16 (s.st.branch b).2 2 ^^^ (rotr16 (s.st.branch b).1 7 + (s.st.branch b).2)) ∧
    t.st.branch (otherBranch b) = s.st.branch (otherBranch b) ∧
    t.stDef.branch (otherBranch b) = s.stDef.branch (otherBranch b) ∧
    t = { s with
      st := t.st, stDef := t.stDef, faulted := t.faulted, busy := false, err := .none,
      cause := ⟨false, false, false, false⟩ }

/-- R105: ARXI b replaces branch b by A_inverse of it, and leaves the rest. -/
def Obligations.ArxiAppliesTheInverse : Prop :=
  decode 0x0002 = .arxi .b0 ∧ decode 0x0012 = .arxi .b1 ∧
  (∀ v : Word, opField v = 0x2 → zField v ≠ 0 → decode v = .illegal v) ∧
  ∀ (b : Branch) (s : State), ∃ t, exec (.arxi b) s = .next t ∧
    t.st.branch b =
      (rotl16 ((s.st.branch b).1 - rotr16 ((s.st.branch b).2 ^^^ (s.st.branch b).1) 2) 7,
        rotr16 ((s.st.branch b).2 ^^^ (s.st.branch b).1) 2) ∧
    t.st.branch (otherBranch b) = s.st.branch (otherBranch b) ∧
    t.stDef.branch (otherBranch b) = s.stDef.branch (otherBranch b) ∧
    t = { s with
      st := t.st, stDef := t.stDef, faulted := t.faulted, busy := false, err := .none,
      cause := ⟨false, false, false, false⟩ }

/-- R124: LIN replaces ST by L of it, and leaves the rest. -/
def Obligations.LinAppliesTheLinearLayer : Prop :=
  decode 0x0003 = .lin ∧ (∀ v : Word, opField v = 0x3 → v ≠ 0x0003 → decode v = .illegal v) ∧
  ∀ s : State, ∃ t, exec .lin s = .next t ∧
    t.st.w0 = s.st.w2 ^^^ s.st.w0 ^^^ rotl16 (s.st.w0 ^^^ s.st.w1) 8 ∧
    t.st.w1 = s.st.w3 ^^^ s.st.w1 ^^^ rotl16 (s.st.w0 ^^^ s.st.w1) 8 ∧
    t.st.w2 = s.st.w0 ∧ t.st.w3 = s.st.w1 ∧
    t = { s with
      st := t.st, stDef := t.stDef, faulted := t.faulted, busy := false, err := .none,
      cause := ⟨false, false, false, false⟩ }

/-- R125: LINI replaces ST by L_inverse of it, and leaves the rest. -/
def Obligations.LiniAppliesTheInverse : Prop :=
  decode 0x0004 = .lini ∧ (∀ v : Word, opField v = 0x4 → v ≠ 0x0004 → decode v = .illegal v) ∧
  ∀ s : State, ∃ t, exec .lini s = .next t ∧
    t.st.w0 = s.st.w2 ∧ t.st.w1 = s.st.w3 ∧
    t.st.w2 = s.st.w0 ^^^ s.st.w2 ^^^ rotl16 (s.st.w2 ^^^ s.st.w3) 8 ∧
    t.st.w3 = s.st.w1 ^^^ s.st.w3 ^^^ rotl16 (s.st.w2 ^^^ s.st.w3) 8 ∧
    t = { s with
      st := t.st, stDef := t.stDef, faulted := t.faulted, busy := false, err := .none,
      cause := ⟨false, false, false, false⟩ }

/-- R105, R125: each primitive command on ST is undone by its inverse command, in either order. -/
def Obligations.InverseCommandsRestoreTheState : Prop :=
  ∀ (i j : Instr) (s : State),
    ((∃ b, i = .arx b ∧ j = .arxi b) ∨ (∃ b, i = .arxi b ∧ j = .arx b) ∨ (i = .lin ∧ j = .lini) ∨
      (i = .lini ∧ j = .lin)) →
    ∃ t u, exec i s = .next t ∧ exec j t = .next u ∧ u.st = s.st

/-- R143: KLOAD copies MK into KR, a word of KR being defined when its word of MK is, and leaves the rest. -/
def Obligations.KloadCopiesTheMasterKey : Prop :=
  decode 0x0005 = .kload ∧
  ∀ s : State, ∃ t, exec .kload s = .next t ∧
    t = { s with
      kr := s.mkey, krDef := s.mkeyDef, faulted := t.faulted, busy := false, err := .none,
      cause := ⟨false, false, false, false⟩ }

/-- R144: KPERM replaces KR by KP(KR, RIDX), and leaves the rest. -/
def Obligations.KpermAppliesTheKeyPermutation : Prop :=
  decode 0x0006 = .kperm ∧
  ∀ s : State, ∃ t, exec .kperm s = .next t ∧
    t.kr =
      ⟨s.kr.w6, s.kr.w7 + s.ridx, (roundA s.kr.w0 s.kr.w1).1, (roundA s.kr.w0 s.kr.w1).2,
        s.kr.w2 + (roundA s.kr.w0 s.kr.w1).1, s.kr.w3 + (roundA s.kr.w0 s.kr.w1).2, s.kr.w4, s.kr.w5⟩ ∧
    t = { s with
      kr := t.kr, krDef := t.krDef, faulted := t.faulted, busy := false, err := .none,
      cause := ⟨false, false, false, false⟩ }

/-- R161, R164: an accepted configuration gives the table T[c][w] = KP^(c)(mk)[w] for c ≤ 2N and w < 2R, latches the
configuration, sets TBL_VALID, and leaves everything but SK's recorded words, the table's fields, KR and STATUS. That the
storage words outside the new logical table keep what they held (the else branch, and the addresses below the window) is
the model's choice, log entry 5: the spec says only that they are not part of the table. The premise on the storage is
part of the invariant (StepKeepsTheInvariant). -/
def Obligations.KschedBuildsTheTable : Prop :=
  ∀ s : State, s.sk.wf = true → 1 ≤ s.cfgSteps → s.cfgSteps ≤ s.maxSteps.toNat → 2 ≤ s.cfgRps → s.cfgRps ≤ 4 →
    ∃ t, exec .ksched s = .next t ∧
      (∀ (c : Nat) (w : Fin 8),
        t.skWord c w.val =
          if c ≤ 2 * s.cfgSteps ∧ w.val < 2 * s.cfgRps then (keyAt s.mkey c).get w else s.skWord c w.val) ∧
      (∀ a, a < 0x100 → t.sk.read a = s.sk.read a) ∧
      t.tblSteps = s.cfgSteps ∧ t.tblRps = s.cfgRps ∧ t.tblCfg.toNat < 0x800 ∧
      t = { s with
        sk := t.sk, tblCfg := t.tblCfg, tblValid := true, skDef := t.skDef, kr := t.kr, krDef := t.krDef,
        draws := t.draws, faulted := t.faulted, busy := false, err := .none, cause := ⟨false, false, false, false⟩ }

/-- R162, R165: a configuration that is not accepted changes nothing but STATUS, which takes ConfigError and every
failing condition. -/
def Obligations.KschedRejectsTheConfiguration : Prop :=
  ∀ s : State, ¬(1 ≤ s.cfgSteps ∧ s.cfgSteps ≤ s.maxSteps.toNat ∧ 2 ≤ s.cfgRps ∧ s.cfgRps ≤ 4) →
    exec .ksched s =
      .next { s with
        busy := false, err := .configError,
        cause := ⟨decide (8 < 2 * s.cfgRps), decide (s.cfgRps < 2), decide (s.cfgSteps = 0),
          decide (s.maxSteps.toNat < s.cfgSteps)⟩ } ∧
    (8 < 2 * s.cfgRps ∨ s.cfgRps < 2 ∨ s.cfgSteps = 0 ∨ s.maxSteps.toNat < s.cfgSteps)

/-- R190: with a table, ENC replaces ST by EncRange(ST, 1, N); without one it raises NoSchedule. RANGE is not read. -/
def Obligations.EncEncryptsTheFullRange : Prop :=
  decode 0x0008 = .enc ∧
  ∀ s : State,
    (s.tblValid = true → ∃ t, exec .enc s = .next t ∧
      t.st = encRange s.skWord s.tblSteps s.tblRps 1 s.tblSteps s.st ∧
      t = { s with
        st := t.st, stDef := t.stDef, faulted := t.faulted, busy := false, err := .none,
        cause := ⟨false, false, false, false⟩ }) ∧
    (s.tblValid = false → exec .enc s = .next { s with
      busy := false, err := .noSchedule, cause := ⟨false, false, false, false⟩ })

/-- R191: with a table, DEC replaces ST by DecRange(ST, 1, N); without one it raises NoSchedule. -/
def Obligations.DecDecryptsTheFullRange : Prop :=
  decode 0x0009 = .dec ∧
  ∀ s : State,
    (s.tblValid = true → ∃ t, exec .dec s = .next t ∧
      t.st = decRange s.skWord s.tblSteps s.tblRps 1 s.tblSteps s.st ∧
      t = { s with
        st := t.st, stDef := t.stDef, faulted := t.faulted, busy := false, err := .none,
        cause := ⟨false, false, false, false⟩ }) ∧
    (s.tblValid = false → exec .dec s = .next { s with
      busy := false, err := .noSchedule, cause := ⟨false, false, false, false⟩ })

/-- R192, R185, R236: with a table and 1 ≤ f ≤ t ≤ N, ENCS replaces ST by EncRange(ST, f, t); NoSchedule without a table
comes before RangeError. -/
def Obligations.EncsEncryptsThePartialRange : Prop :=
  decode 0x000A = .encs ∧
  ∀ s : State,
    (s.tblValid = true → 1 ≤ s.fromStep → s.fromStep ≤ s.toStep → s.toStep ≤ s.tblSteps →
      ∃ t, exec .encs s = .next t ∧
        t.st = encRange s.skWord s.tblSteps s.tblRps s.fromStep s.toStep s.st ∧
        t = { s with
          st := t.st, stDef := t.stDef, faulted := t.faulted, busy := false, err := .none,
          cause := ⟨false, false, false, false⟩ }) ∧
    (s.tblValid = true → ¬(1 ≤ s.fromStep ∧ s.fromStep ≤ s.toStep ∧ s.toStep ≤ s.tblSteps) →
      exec .encs s = .next { s with busy := false, err := .rangeError, cause := ⟨false, false, false, false⟩ }) ∧
    (s.tblValid = false →
      exec .encs s = .next { s with busy := false, err := .noSchedule, cause := ⟨false, false, false, false⟩ })

/-- R193, R185, R236: with a table and 1 ≤ f ≤ t ≤ N, DECS replaces ST by DecRange(ST, f, t); NoSchedule without a table
comes before RangeError. -/
def Obligations.DecsDecryptsThePartialRange : Prop :=
  decode 0x000B = .decs ∧
  ∀ s : State,
    (s.tblValid = true → 1 ≤ s.fromStep → s.fromStep ≤ s.toStep → s.toStep ≤ s.tblSteps →
      ∃ t, exec .decs s = .next t ∧
        t.st = decRange s.skWord s.tblSteps s.tblRps s.fromStep s.toStep s.st ∧
        t = { s with
          st := t.st, stDef := t.stDef, faulted := t.faulted, busy := false, err := .none,
          cause := ⟨false, false, false, false⟩ }) ∧
    (s.tblValid = true → ¬(1 ≤ s.fromStep ∧ s.fromStep ≤ s.toStep ∧ s.toStep ≤ s.tblSteps) →
      exec .decs s = .next { s with busy := false, err := .rangeError, cause := ⟨false, false, false, false⟩ }) ∧
    (s.tblValid = false →
      exec .decs s = .next { s with busy := false, err := .noSchedule, cause := ⟨false, false, false, false⟩ })

/-- R187, R191, R193: a decryption after an encryption with the same table restores ST, and an encryption after a
decryption, over the full range and over every valid partial range. -/
def Obligations.DecryptionRestoresTheBlock : Prop :=
  ∀ s : State, s.tblValid = true →
    (∃ t u, exec .enc s = .next t ∧ exec .dec t = .next u ∧ u.st = s.st) ∧
    (∃ t u, exec .dec s = .next t ∧ exec .enc t = .next u ∧ u.st = s.st) ∧
    (1 ≤ s.fromStep → s.fromStep ≤ s.toStep → s.toStep ≤ s.tblSteps →
      (∃ t u, exec .encs s = .next t ∧ exec .decs t = .next u ∧ u.st = s.st) ∧
      (∃ t u, exec .decs s = .next t ∧ exec .encs t = .next u ∧ u.st = s.st))

/-- R192: with RANGE = (N << 8) | 1 the partial commands are exactly the full ones. -/
def Obligations.WholeRangeIsTheFullCommand : Prop :=
  ∀ s : State, 1 ≤ s.tblSteps → s.range.toNat = 256 * s.tblSteps + 1 →
    exec .encs s = exec .enc s ∧ exec .decs s = exec .dec s

/-- R86, R232: a word that is none of the 14 raises IllegalCommand, and nothing but STATUS is written. -/
def Obligations.IllegalWordWritesOnlyStatus : Prop :=
  ∀ (v : Word) (s : State),
    v ∉ ([0x0000, 0x0001, 0x0011, 0x0002, 0x0012, 0x0003, 0x0004, 0x0005, 0x0006, 0x0007, 0x0008, 0x0009, 0x000A,
      0x000B] : List Word) →
    decode v = .illegal v ∧
    exec (.illegal v) s =
      .next { s with busy := false, err := .illegalCommand, cause := ⟨false, false, false, false⟩ }

/-! ## All commands -/

/-- R237: a command that ends in an error leaves the state as it was but for STATUS, and CAUSE is 0 but for
ConfigError. -/
def Obligations.ErrorLeavesAllButStatus : Prop :=
  ∀ (i : Instr) (s t : State), exec i s = .next t → t.err ≠ .none →
    t = { s with busy := false, err := t.err, cause := t.cause } ∧
    (t.err ≠ .configError → t.cause = ⟨false, false, false, false⟩)

/-- R233 to R236: the error each command ends in, and its cause bits. -/
def Obligations.ErrorOfEveryCommand : Prop :=
  ∀ (i : Instr) (s t : State), exec i s = .next t →
    (t.err, t.cause) =
      match i with
      | .illegal _ => (ErrCode.illegalCommand, (⟨false, false, false, false⟩ : Cause))
      | .enc | .dec => (if s.tblValid = false then .noSchedule else .none, ⟨false, false, false, false⟩)
      | .encs | .decs =>
        (if s.tblValid = false then .noSchedule
          else if 1 ≤ s.fromStep ∧ s.fromStep ≤ s.toStep ∧ s.toStep ≤ s.tblSteps then .none else .rangeError,
          ⟨false, false, false, false⟩)
      | .ksched =>
        (if 1 ≤ s.cfgSteps ∧ s.cfgSteps ≤ s.maxSteps.toNat ∧ 2 ≤ s.cfgRps ∧ s.cfgRps ≤ 4 then .none else .configError,
          ⟨decide (5 ≤ s.cfgRps), decide (s.cfgRps ≤ 1), decide (s.cfgSteps = 0),
            decide (s.maxSteps.toNat < s.cfgSteps)⟩)
      | _ => (.none, ⟨false, false, false, false⟩)

/-- R33, R290: every command completes, from every state, and clears BUSY. -/
def Obligations.EveryCommandCompletes : Prop :=
  ∀ (i : Instr) (s : State), ∃ t, exec i s = .next t ∧ t.busy = false

/-- R20 to R25, R83: no command writes MK, CFG, RANGE, RIDX or CUR; only the eight commands on ST write it; only KLOAD,
KPERM and KSCHED write KR; only KSCHED writes the table. -/
def Obligations.CommandsWriteOnlyTheirTargets : Prop :=
  ∀ (i : Instr) (s t : State), exec i s = .next t →
    (t.mkey = s.mkey ∧ t.mkeyDef = s.mkeyDef ∧ t.cfg = s.cfg ∧ t.range = s.range ∧ t.ridx = s.ridx ∧ t.cur = s.cur ∧
      t.maxSteps = s.maxSteps ∧ t.agenda = s.agenda ∧ t.replies = s.replies) ∧
    (i = .nop ∨ i = .kload ∨ i = .kperm ∨ i = .ksched ∨ (∃ w, i = .illegal w) → t.st = s.st ∧ t.stDef = s.stDef) ∧
    (i ≠ .kload → i ≠ .kperm → i ≠ .ksched → t.kr = s.kr ∧ t.krDef = s.krDef) ∧
    (i ≠ .ksched → (∀ a, t.sk.read a = s.sk.read a) ∧ t.sk = s.sk ∧ t.tblCfg = s.tblCfg ∧ t.tblValid = s.tblValid ∧
      t.skDef = s.skDef ∧ t.draws = s.draws)

/-- R38, R272, R273: a command all of whose operands are defined leaves every defined word defined, and every word whose
value it changes defined (the model's definedness bits, log entries 2 and 3). -/
def Obligations.DefinedOperandsGiveDefinedResults : Prop :=
  ∀ (i : Instr) (s t : State), s.operandsDefined i = true → exec i s = .next t →
    (∀ j, s.stDef.get j = true → t.stDef.get j = true) ∧
    (∀ j, s.krDef.get j = true → t.krDef.get j = true) ∧
    (∀ c w, s.skWordDef c w = true → t.skWordDef c w = true) ∧
    (∀ j, t.st.get j ≠ s.st.get j → t.stDef.get j = true) ∧
    (∀ j, t.kr.get j ≠ s.kr.get j → t.krDef.get j = true) ∧
    (t.sk ≠ s.sk → ∀ c w, t.skWordDef c w = true)

/-- R38: which data words each command leaves defined: those computed from defined words only, word by word through the
formulas of R100 and R101, R120 and R121, R140, R161, R181 to R183 and R186 (that reading of "computed from" is the
model's, log entry 3). KR after KSCHED holds some value, so all of it is defined (R38's last paragraph, log entry 9). For
the step engine: one step that does not whiten, with ENCS and with DECS; then every range of the four step commands, as
its steps one after the other with the whitening word by word when t = N. NOP, a reserved word and a command that ends in
an error leave every bit as it was. -/
def Obligations.DefinednessIsPerWord : Prop :=
  (∀ (b : Branch) (i : Instr) (s t : State), i = .arx b ∨ i = .arxi b → exec i s = .next t →
    ((t.stDef.branch b).1 = true ↔ (s.stDef.branch b).1 = true ∧ (s.stDef.branch b).2 = true) ∧
    ((t.stDef.branch b).2 = true ↔ (s.stDef.branch b).1 = true ∧ (s.stDef.branch b).2 = true) ∧
    t.stDef.branch (otherBranch b) = s.stDef.branch (otherBranch b)) ∧
  (∀ s t : State, exec .lin s = .next t →
    (t.stDef.w0 = true ↔ s.stDef.w0 = true ∧ s.stDef.w1 = true ∧ s.stDef.w2 = true) ∧
    (t.stDef.w1 = true ↔ s.stDef.w0 = true ∧ s.stDef.w1 = true ∧ s.stDef.w3 = true) ∧
    t.stDef.w2 = s.stDef.w0 ∧ t.stDef.w3 = s.stDef.w1) ∧
  (∀ s t : State, exec .lini s = .next t →
    t.stDef.w0 = s.stDef.w2 ∧ t.stDef.w1 = s.stDef.w3 ∧
    (t.stDef.w2 = true ↔ s.stDef.w0 = true ∧ s.stDef.w2 = true ∧ s.stDef.w3 = true) ∧
    (t.stDef.w3 = true ↔ s.stDef.w1 = true ∧ s.stDef.w2 = true ∧ s.stDef.w3 = true)) ∧
  (∀ s t : State, exec .kperm s = .next t →
    t.krDef.w0 = s.krDef.w6 ∧ t.krDef.w1 = s.krDef.w7 ∧ t.krDef.w6 = s.krDef.w4 ∧ t.krDef.w7 = s.krDef.w5 ∧
    (t.krDef.w2 = true ↔ s.krDef.w0 = true ∧ s.krDef.w1 = true) ∧
    (t.krDef.w3 = true ↔ s.krDef.w0 = true ∧ s.krDef.w1 = true) ∧
    (t.krDef.w4 = true ↔ s.krDef.w0 = true ∧ s.krDef.w1 = true ∧ s.krDef.w2 = true) ∧
    (t.krDef.w5 = true ↔ s.krDef.w0 = true ∧ s.krDef.w1 = true ∧ s.krDef.w3 = true)) ∧
  (∀ s t : State, exec .ksched s = .next t → t.err = .none →
    (∀ j, t.krDef.get j = true) ∧
    (∀ w : Fin 8, t.skWordDef 0 w.val = s.mkeyDef.get w) ∧
    ∀ c : Nat,
      t.skWordDef (c + 1) 0 = t.skWordDef c 6 ∧ t.skWordDef (c + 1) 1 = t.skWordDef c 7 ∧
      t.skWordDef (c + 1) 6 = t.skWordDef c 4 ∧ t.skWordDef (c + 1) 7 = t.skWordDef c 5 ∧
      (t.skWordDef (c + 1) 2 = true ↔ t.skWordDef c 0 = true ∧ t.skWordDef c 1 = true) ∧
      (t.skWordDef (c + 1) 3 = true ↔ t.skWordDef c 0 = true ∧ t.skWordDef c 1 = true) ∧
      (t.skWordDef (c + 1) 4 = true ↔ t.skWordDef c 0 = true ∧ t.skWordDef c 1 = true ∧ t.skWordDef c 2 = true) ∧
      (t.skWordDef (c + 1) 5 = true ↔ t.skWordDef c 0 = true ∧ t.skWordDef c 1 = true ∧ t.skWordDef c 3 = true)) ∧
  (∀ (s t : State) (k : Nat), s.tblValid = true → s.fromStep = k → s.toStep = k → 1 ≤ k → k < s.tblSteps →
    1 ≤ s.tblRps → exec .encs s = .next t →
    let whole0 := s.stDef.w0 = true ∧ s.stDef.w1 = true ∧ ∀ w, w < 2 * s.tblRps → s.skWordDef (2 * (k - 1)) w = true
    let whole1 := s.stDef.w2 = true ∧ s.stDef.w3 = true ∧ ∀ w, w < 2 * s.tblRps → s.skWordDef (2 * (k - 1) + 1) w = true
    (t.stDef.w0 = true ↔ whole0 ∧ whole1) ∧ (t.stDef.w1 = true ↔ whole0 ∧ whole1) ∧
    (t.stDef.w2 = true ↔ whole0) ∧ (t.stDef.w3 = true ↔ whole0)) ∧
  (∀ (s t : State) (k : Nat), s.tblValid = true → s.fromStep = k → s.toStep = k → 1 ≤ k → k < s.tblSteps →
    1 ≤ s.tblRps → exec .decs s = .next t →
    let branch0 := s.stDef.w2 = true ∧ s.stDef.w3 = true
    let branch1 := s.stDef.w0 = true ∧ s.stDef.w1 = true ∧ s.stDef.w2 = true ∧ s.stDef.w3 = true
    let used := fun e skipped => ∀ w, w < 2 * s.tblRps → w ≠ skipped → s.skWordDef e w = true
    (t.stDef.w0 = true ↔ branch0 ∧ used (2 * (k - 1)) 1) ∧ (t.stDef.w1 = true ↔ branch0 ∧ used (2 * (k - 1)) 0) ∧
    (t.stDef.w2 = true ↔ branch1 ∧ used (2 * (k - 1) + 1) 1) ∧
    (t.stDef.w3 = true ↔ branch1 ∧ used (2 * (k - 1) + 1) 0)) ∧
  (∀ s t : State, s.tblValid = true →
    (exec .enc s = .next t → t.stDef = encRangeDef s.skWordDef s.tblSteps s.tblRps 1 s.tblSteps s.stDef) ∧
    (exec .dec s = .next t → t.stDef = decRangeDef s.skWordDef s.tblSteps s.tblRps 1 s.tblSteps s.stDef)) ∧
  (∀ s t : State, s.tblValid = true → 1 ≤ s.fromStep → s.fromStep ≤ s.toStep → s.toStep ≤ s.tblSteps →
    (exec .encs s = .next t →
      t.stDef = encRangeDef s.skWordDef s.tblSteps s.tblRps s.fromStep s.toStep s.stDef) ∧
    (exec .decs s = .next t →
      t.stDef = decRangeDef s.skWordDef s.tblSteps s.tblRps s.fromStep s.toStep s.stDef)) ∧
  (∀ (skd : Nat → Nat → Bool) (n r f u : Nat) (d : Quad Bool),
    (∀ i : Fin 4, (encRangeDef skd n r f u d).get i = true ↔
      ((List.range' f (u + 1 - f)).foldl (fun d k => encStepDef skd r k d) d).get i = true ∧
        (u = n → skd (2 * n) i.val = true)) ∧
    ∃ y : Quad Bool,
      (∀ i : Fin 4, y.get i = true ↔ d.get i = true ∧ (u = n → skd (2 * n) i.val = true)) ∧
      decRangeDef skd n r f u d = (List.range' f (u + 1 - f)).reverse.foldl (fun d k => decStepDef skd r k d) y) ∧
  (∀ s t : State, exec .kload s = .next t → t.krDef = s.mkeyDef) ∧
  (∀ (i : Instr) (s t : State), exec i s = .next t → (i = .nop ∨ t.err ≠ .none) →
    t.stDef = s.stDef ∧ t.krDef = s.krDef ∧ t.skDef = s.skDef ∧ t.mkeyDef = s.mkeyDef)

/-- R38's last bullet, with rows 1, 2 and 9 of 93: the run is marked faulted exactly when a command uses a data word that
holds no defined value, or a host read while idle returns an unspecified value; nothing takes the mark back (the mark is a
field of the model's, log entry 20). -/
def Obligations.UndefinedUseMarksTheRun : Prop :=
  (∀ (i : Instr) (s t : State), exec i s = .next t → t.faulted = (s.faulted || !s.operandsDefined i)) ∧
  ∀ s t : State, step s = .next t →
    t.faulted =
      (s.faulted ||
        match s.agenda with
        | [] => s.busy && !s.operandsDefined (decode s.cur)
        | .sequencer :: _ => s.busy && !s.operandsDefined (decode s.cur)
        | .host (.read a) :: _ => !s.busy && decide (s.peek a = none)
        | .host (.write _ _) :: _ => false
        | .reset :: _ => false)

/-! ## The host interface (20_memory.md) -/

/-- R54, R55, R62: a host write at the head of the agenda takes effect as the next step; while idle, a write to any
address but CMD is read back at it if it is read/write (CFG without its reserved bits), and leaves what every other
address reads. -/
def Obligations.HostWriteThenRead : Prop :=
  (∀ (s : State) (a : Addr) (v : Word) (rest : List Event), s.agenda = .host (.write a v) :: rest →
    step s = .next ({ s with agenda := rest }.hostWrite a v)) ∧
  ∀ (s : State) (a : Addr) (v : Word), s.busy = false → a ≠ 0x000 →
    (∀ b : Addr, b ≠ a → (s.hostWrite a v).peek b = s.peek b) ∧
    (s.hostWrite a v).peek a =
      (if a = 0x002 then some (v &&& 0x07FF)
        else if (0x003 ≤ a.toNat ∧ a.toNat ≤ 0x004) ∨ (0x008 ≤ a.toNat ∧ a.toNat ≤ 0x013) then some v
        else s.peek a)

/-- R54: a write to a read-only register or a reserved address is ignored; CMD and the reserved addresses read 0, busy
or idle. -/
def Obligations.ReservedAndReadOnlyAccesses : Prop :=
  ∀ (s : State) (a : Addr) (v : Word),
    (a.toNat = 0x001 ∨ (0x005 ≤ a.toNat ∧ a.toNat ≤ 0x007) ∨ 0x014 ≤ a.toNat → s.hostWrite a v = s) ∧
    (a.toNat = 0x000 ∨ a.toNat = 0x007 ∨ (0x014 ≤ a.toNat ∧ a.toNat ≤ 0x017) ∨ (0x020 ≤ a.toNat ∧ a.toNat ≤ 0x0FF) ∨
      0x10F8 ≤ a.toNat → s.peek a = some 0x0000)

/-- R61: a host read gives the host one word and changes nothing of the block; an unspecified value is a fresh free
value (whether it marks the run is UndefinedUseMarksTheRun's). -/
def Obligations.HostReadOnlyReplies : Prop :=
  ∀ (s : State) (a : Addr) (rest : List Event), s.agenda = .host (.read a) :: rest →
    (∀ v, s.peek a = some v → step s = .next { s with agenda := rest, replies := s.replies ++ [v] }) ∧
    (s.peek a = none → ∃ t, step s = .next t ∧ t = { s with
      agenda := rest, replies := s.replies ++ [Config.freeWord s.draws], draws := s.draws + 1, faulted := t.faulted })

/-- R53, R56: what the SK window reads while idle; a word of the table computed from a key word that was not defined is
unspecified (R38; log entry 3). -/
def Obligations.WindowReads : Prop :=
  ∀ (s : State) (c w : Nat), c ≤ 510 → w ≤ 7 → s.busy = false →
    s.peek (BitVec.ofNat 13 (0x100 + 8 * c + w)) =
      if s.tblValid = true then
        (if c ≤ 2 * s.tblSteps ∧ w < 2 * s.tblRps then
          (if s.skWordDef c w = true then some (s.sk.read (0x100 + 8 * c + w)) else none)
        else some 0x0000)
      else if c ≤ 2 * s.maxSteps.toNat then none
      else some 0x0000

/-- R27 to R30, R38, R52, R55: while idle, CFG, RANGE, RIDX and TBL_CFG read their values at 0x002 to 0x005, and word i
of MK, ST and KR reads its value at 0x008 + i, 0x010 + i and 0x018 + i, and an unspecified value if it is not defined. -/
def Obligations.DataWordReads : Prop :=
  ∀ s : State, s.busy = false →
    s.peek 0x002 = some s.cfg ∧ s.peek 0x003 = some s.range ∧ s.peek 0x004 = some s.ridx ∧
    s.peek 0x005 = some s.tblCfg ∧
    (∀ i : Fin 8, s.peek (BitVec.ofNat 13 (0x008 + i.val)) = if s.mkeyDef.get i = true then some (s.mkey.get i) else none) ∧
    (∀ i : Fin 4, s.peek (BitVec.ofNat 13 (0x010 + i.val)) = if s.stDef.get i = true then some (s.st.get i) else none) ∧
    (∀ i : Fin 8, s.peek (BitVec.ofNat 13 (0x018 + i.val)) = if s.krDef.get i = true then some (s.kr.get i) else none)

/-- R32, R230, R231: the STATUS word, bit by bit, and it reads so at address 1, busy or idle. -/
def Obligations.StatusWordLayout : Prop :=
  ∀ s : State,
    s.peek 0x001 = some s.status ∧
    s.status.toNat =
      s.busy.toNat + 2 * s.tblValid.toNat +
        16 * (match s.err with
          | .none => 0
          | .configError => 1
          | .rangeError => 2
          | .noSchedule => 3
          | .illegalCommand => 4) +
        256 * s.cause.rpsTooLarge.toNat + 512 * s.cause.rpsTooSmall.toNat + 1024 * s.cause.stepsZero.toNat +
        2048 * s.cause.capacity.toNat

/-- R31: PARAM reads IF_REV = 1 and MAX_STEPS, busy or idle, and no step changes it. -/
def Obligations.ParamIsConstant : Prop :=
  (∀ s : State, ∃ v, s.peek 0x006 = some v ∧ v.toNat = 256 * 1 + s.maxSteps.toNat) ∧
  ∀ s t : State, step s = .next t → t.maxSteps = s.maxSteps ∧ t.peek 0x006 = s.peek 0x006

/-- R33: a write of v to CMD while idle issues the command v. -/
def Obligations.CommandWriteIssues : Prop :=
  ∀ (s : State) (v : Word) (rest : List Event), s.busy = false → s.agenda = .host (.write 0x000 v) :: rest →
    step s = .next { s with
      cur := v, busy := true, err := .none, cause := ⟨false, false, false, false⟩, agenda := rest }

/-- R57: while BUSY = 1, STATUS reads with BUSY = 1, PARAM its constant, CMD and reserved addresses 0, every other
address an unspecified value, and every write is ignored. -/
def Obligations.BusyAccesses : Prop :=
  ∀ (s : State) (a : Addr), s.busy = true →
    (∀ v : Word, s.hostWrite a v = s) ∧
    s.status.getLsbD 0 = true ∧
    s.peek a =
      if a.toNat = 0x001 then some s.status
      else if a.toNat = 0x006 then some s.param
      else if a.toNat = 0x000 ∨ a.toNat = 0x007 ∨ (0x014 ≤ a.toNat ∧ a.toNat ≤ 0x017) ∨
        (0x020 ≤ a.toNat ∧ a.toNat ≤ 0x0FF) ∨ 0x10F8 ≤ a.toNat then some 0x0000
      else none

/-! ## The machine -/

/-- R33, R245: the completion step is the decoded command's meaning, whether the agenda is empty or the sequencer's turn
stands first in it (then on the state with that turn taken off); with no command in flight the block holds all its
state. -/
def Obligations.StepRunsTheCommandInFlight : Prop :=
  (∀ (s : State) (i : Instr), s.busy = true → i.wellFormed = true → decode s.cur = i →
    (s.agenda = [] → step s = exec i s) ∧
    (∀ rest, s.agenda = .sequencer :: rest → step s = exec i { s with agenda := rest })) ∧
  ∀ s : State, s.busy = false →
    (s.agenda = [] → step s = .next s) ∧
    (∀ rest, s.agenda = .sequencer :: rest → step s = .next { s with agenda := rest })

/-- The word placed by withFetchWord is the very next thing that runs (log entry 11). -/
def Obligations.PlacedCommandRunsNext : Prop :=
  ∀ (s : State) (w : Nat), w < 2 ^ 16 →
    step (s.withFetchWord 16 w) =
      exec (decode (BitVec.ofNat 16 w)) { s with
        cur := BitVec.ofNat 16 w, busy := true, err := .none, cause := ⟨false, false, false, false⟩ }

/-- R37: the values the spec gives for reset; no data word holds a defined value, so a read of any is unspecified. -/
def Obligations.ResetLeavesTheSpecValues : Prop :=
  State.reset.tblValid = false ∧ State.reset.tblCfg = 0x0000 ∧ State.reset.cfg = 0x0308 ∧
  State.reset.cfgSteps = 8 ∧ State.reset.cfgRps = 3 ∧ State.reset.range = 0x0000 ∧ State.reset.ridx = 0x0000 ∧
  State.reset.status = 0x0000 ∧ State.reset.busy = false ∧
  (∀ i, State.reset.stDef.get i = false) ∧ (∀ i, State.reset.mkeyDef.get i = false) ∧
  (∀ i, State.reset.krDef.get i = false) ∧ (∀ c w, State.reset.skWordDef c w = false) ∧
  (∀ a : Addr, (0x008 ≤ a.toNat ∧ a.toNat ≤ 0x013) ∨ (0x018 ≤ a.toNat ∧ a.toNat ≤ 0x01F) → State.reset.peek a = none)

/-- R270: the reset input, at any time, gives every piece of the block's state its reset value and abandons a command in
flight; MAX_STEPS, a constant, and what is outside the block stay, the run's mark among it (log entries 13 and 20). -/
def Obligations.ResetInputRestoresAll : Prop :=
  ∀ (s : State) (rest : List Event), s.agenda = .reset :: rest →
    step s = .next { State.reset with
      maxSteps := s.maxSteps, draws := s.draws, faulted := s.faulted, agenda := rest, replies := s.replies }

/-- R24, R25, R30, R64: the table and its configuration change only at the completion of a KSCHED, a step in which the
sequencer moves with a KSCHED in flight, or at reset, and nothing but reset makes a valid table invalid. -/
def Obligations.TableChangesOnlyByKschedOrReset : Prop :=
  ∀ s t : State, step s = .next t → (∀ rest, s.agenda ≠ .reset :: rest) →
    (s.tblValid = true → t.tblValid = true) ∧
    (¬(s.busy = true ∧ decode s.cur = .ksched ∧ (s.agenda = [] ∨ ∃ rest, s.agenda = .sequencer :: rest)) →
      t.sk = s.sk ∧ t.tblCfg = s.tblCfg ∧ t.tblValid = s.tblValid ∧ t.skDef = s.skDef)

/-- R22, R27, R28, R29, R285: the inputs MK, CFG, RANGE and RIDX change only by a host write while idle, or at reset. -/
def Obligations.InputsChangeOnlyByHostWriteOrReset : Prop :=
  ∀ s t : State, step s = .next t → (∀ rest, s.agenda ≠ .reset :: rest) →
    (∀ a v rest, s.busy = false → s.agenda ≠ .host (.write a v) :: rest) →
    t.mkey = s.mkey ∧ t.mkeyDef = s.mkeyDef ∧ t.cfg = s.cfg ∧ t.range = s.range ∧ t.ridx = s.ridx

/-- The invariant holds right after reset. -/
def Obligations.InvariantAtReset : Prop := State.reset.Inv

/-- Every step keeps the invariant, from every state that has it: reserved fields read 0, the table storage keeps its
form and its bounds, a valid table has an accepted configuration, and STATUS's fields agree with each other. -/
def Obligations.StepKeepsTheInvariant : Prop :=
  ∀ s t : State, s.Inv → step s = .next t → t.Inv

/-- R290: no step stops the machine, and when the agenda has run out no command is left in flight one step later (the
model's form of weak fairness, log entry 10). -/
def Obligations.AgendaRunsOutIdle : Prop :=
  ∀ s : State, ∃ t, core.run (s.agenda.length + 1) s = .next t ∧ t.agenda = [] ∧ t.busy = false

/-- R38: data words that hold no defined value are invisible: two states that agree on everything defined still do after
any step, so the host's replies are the same whatever the undefined words hold. -/
def Obligations.UndefinedWordsAreInvisible : Prop :=
  ∀ s t s' : State, s.Inv → t.Inv → AgreeOnDefined s t → step s = .next s' →
    ∃ t', step t = .next t' ∧ AgreeOnDefined s' t'
end

