-- ==== Sys2Proof/Laws/State.lean ====
section
/-! SUPPORT. One lemma per field per update of State, so that no later proof unfolds a record update. -/

namespace Sys2Proof.Machine

variable (s : State)

/-! ## State.withSt -/

@[simp] theorem State.withSt_st (q : Quad Word) (d : Quad Bool) : (s.withSt q d).st = q := rfl
@[simp] theorem State.withSt_mkey (q : Quad Word) (d : Quad Bool) : (s.withSt q d).mkey = s.mkey := rfl
@[simp] theorem State.withSt_kr (q : Quad Word) (d : Quad Bool) : (s.withSt q d).kr = s.kr := rfl
@[simp] theorem State.withSt_sk (q : Quad Word) (d : Quad Bool) : (s.withSt q d).sk = s.sk := rfl
@[simp] theorem State.withSt_cfg (q : Quad Word) (d : Quad Bool) : (s.withSt q d).cfg = s.cfg := rfl
@[simp] theorem State.withSt_range (q : Quad Word) (d : Quad Bool) : (s.withSt q d).range = s.range := rfl
@[simp] theorem State.withSt_ridx (q : Quad Word) (d : Quad Bool) : (s.withSt q d).ridx = s.ridx := rfl
@[simp] theorem State.withSt_tblCfg (q : Quad Word) (d : Quad Bool) : (s.withSt q d).tblCfg = s.tblCfg := rfl
@[simp] theorem State.withSt_maxSteps (q : Quad Word) (d : Quad Bool) : (s.withSt q d).maxSteps = s.maxSteps := rfl
@[simp] theorem State.withSt_busy (q : Quad Word) (d : Quad Bool) : (s.withSt q d).busy = s.busy := rfl
@[simp] theorem State.withSt_tblValid (q : Quad Word) (d : Quad Bool) : (s.withSt q d).tblValid = s.tblValid := rfl
@[simp] theorem State.withSt_err (q : Quad Word) (d : Quad Bool) : (s.withSt q d).err = s.err := rfl
@[simp] theorem State.withSt_cause (q : Quad Word) (d : Quad Bool) : (s.withSt q d).cause = s.cause := rfl
@[simp] theorem State.withSt_cur (q : Quad Word) (d : Quad Bool) : (s.withSt q d).cur = s.cur := rfl
@[simp] theorem State.withSt_stDef (q : Quad Word) (d : Quad Bool) : (s.withSt q d).stDef = d := rfl
@[simp] theorem State.withSt_mkeyDef (q : Quad Word) (d : Quad Bool) : (s.withSt q d).mkeyDef = s.mkeyDef := rfl
@[simp] theorem State.withSt_krDef (q : Quad Word) (d : Quad Bool) : (s.withSt q d).krDef = s.krDef := rfl
@[simp] theorem State.withSt_skDef (q : Quad Word) (d : Quad Bool) : (s.withSt q d).skDef = s.skDef := rfl
@[simp] theorem State.withSt_draws (q : Quad Word) (d : Quad Bool) : (s.withSt q d).draws = s.draws := rfl
@[simp] theorem State.withSt_agenda (q : Quad Word) (d : Quad Bool) : (s.withSt q d).agenda = s.agenda := rfl
@[simp] theorem State.withSt_replies (q : Quad Word) (d : Quad Bool) : (s.withSt q d).replies = s.replies := rfl
@[simp] theorem State.withSt_faulted (q : Quad Word) (d : Quad Bool) : (s.withSt q d).faulted = s.faulted := rfl

/-! ## State.withKr -/

@[simp] theorem State.withKr_st (k : Oct Word) (d : Oct Bool) : (s.withKr k d).st = s.st := rfl
@[simp] theorem State.withKr_mkey (k : Oct Word) (d : Oct Bool) : (s.withKr k d).mkey = s.mkey := rfl
@[simp] theorem State.withKr_kr (k : Oct Word) (d : Oct Bool) : (s.withKr k d).kr = k := rfl
@[simp] theorem State.withKr_sk (k : Oct Word) (d : Oct Bool) : (s.withKr k d).sk = s.sk := rfl
@[simp] theorem State.withKr_cfg (k : Oct Word) (d : Oct Bool) : (s.withKr k d).cfg = s.cfg := rfl
@[simp] theorem State.withKr_range (k : Oct Word) (d : Oct Bool) : (s.withKr k d).range = s.range := rfl
@[simp] theorem State.withKr_ridx (k : Oct Word) (d : Oct Bool) : (s.withKr k d).ridx = s.ridx := rfl
@[simp] theorem State.withKr_tblCfg (k : Oct Word) (d : Oct Bool) : (s.withKr k d).tblCfg = s.tblCfg := rfl
@[simp] theorem State.withKr_maxSteps (k : Oct Word) (d : Oct Bool) : (s.withKr k d).maxSteps = s.maxSteps := rfl
@[simp] theorem State.withKr_busy (k : Oct Word) (d : Oct Bool) : (s.withKr k d).busy = s.busy := rfl
@[simp] theorem State.withKr_tblValid (k : Oct Word) (d : Oct Bool) : (s.withKr k d).tblValid = s.tblValid := rfl
@[simp] theorem State.withKr_err (k : Oct Word) (d : Oct Bool) : (s.withKr k d).err = s.err := rfl
@[simp] theorem State.withKr_cause (k : Oct Word) (d : Oct Bool) : (s.withKr k d).cause = s.cause := rfl
@[simp] theorem State.withKr_cur (k : Oct Word) (d : Oct Bool) : (s.withKr k d).cur = s.cur := rfl
@[simp] theorem State.withKr_stDef (k : Oct Word) (d : Oct Bool) : (s.withKr k d).stDef = s.stDef := rfl
@[simp] theorem State.withKr_mkeyDef (k : Oct Word) (d : Oct Bool) : (s.withKr k d).mkeyDef = s.mkeyDef := rfl
@[simp] theorem State.withKr_krDef (k : Oct Word) (d : Oct Bool) : (s.withKr k d).krDef = d := rfl
@[simp] theorem State.withKr_skDef (k : Oct Word) (d : Oct Bool) : (s.withKr k d).skDef = s.skDef := rfl
@[simp] theorem State.withKr_draws (k : Oct Word) (d : Oct Bool) : (s.withKr k d).draws = s.draws := rfl
@[simp] theorem State.withKr_agenda (k : Oct Word) (d : Oct Bool) : (s.withKr k d).agenda = s.agenda := rfl
@[simp] theorem State.withKr_replies (k : Oct Word) (d : Oct Bool) : (s.withKr k d).replies = s.replies := rfl
@[simp] theorem State.withKr_faulted (k : Oct Word) (d : Oct Bool) : (s.withKr k d).faulted = s.faulted := rfl

/-! ## State.withTable -/

@[simp] theorem State.withTable_st (m : Memory) (c : Word) (d : Oct Bool) : (s.withTable m c d).st = s.st := rfl
@[simp] theorem State.withTable_mkey (m : Memory) (c : Word) (d : Oct Bool) : (s.withTable m c d).mkey = s.mkey := rfl
@[simp] theorem State.withTable_kr (m : Memory) (c : Word) (d : Oct Bool) : (s.withTable m c d).kr = s.kr := rfl
@[simp] theorem State.withTable_sk (m : Memory) (c : Word) (d : Oct Bool) : (s.withTable m c d).sk = m := rfl
@[simp] theorem State.withTable_cfg (m : Memory) (c : Word) (d : Oct Bool) : (s.withTable m c d).cfg = s.cfg := rfl
@[simp] theorem State.withTable_range (m : Memory) (c : Word) (d : Oct Bool) : (s.withTable m c d).range = s.range := rfl
@[simp] theorem State.withTable_ridx (m : Memory) (c : Word) (d : Oct Bool) : (s.withTable m c d).ridx = s.ridx := rfl
@[simp] theorem State.withTable_tblCfg (m : Memory) (c : Word) (d : Oct Bool) : (s.withTable m c d).tblCfg = c := rfl
@[simp] theorem State.withTable_maxSteps (m : Memory) (c : Word) (d : Oct Bool) : (s.withTable m c d).maxSteps = s.maxSteps := rfl
@[simp] theorem State.withTable_busy (m : Memory) (c : Word) (d : Oct Bool) : (s.withTable m c d).busy = s.busy := rfl
@[simp] theorem State.withTable_tblValid (m : Memory) (c : Word) (d : Oct Bool) : (s.withTable m c d).tblValid = true := rfl
@[simp] theorem State.withTable_err (m : Memory) (c : Word) (d : Oct Bool) : (s.withTable m c d).err = s.err := rfl
@[simp] theorem State.withTable_cause (m : Memory) (c : Word) (d : Oct Bool) : (s.withTable m c d).cause = s.cause := rfl
@[simp] theorem State.withTable_cur (m : Memory) (c : Word) (d : Oct Bool) : (s.withTable m c d).cur = s.cur := rfl
@[simp] theorem State.withTable_stDef (m : Memory) (c : Word) (d : Oct Bool) : (s.withTable m c d).stDef = s.stDef := rfl
@[simp] theorem State.withTable_mkeyDef (m : Memory) (c : Word) (d : Oct Bool) : (s.withTable m c d).mkeyDef = s.mkeyDef := rfl
@[simp] theorem State.withTable_krDef (m : Memory) (c : Word) (d : Oct Bool) : (s.withTable m c d).krDef = s.krDef := rfl
@[simp] theorem State.withTable_skDef (m : Memory) (c : Word) (d : Oct Bool) : (s.withTable m c d).skDef = d := rfl
@[simp] theorem State.withTable_draws (m : Memory) (c : Word) (d : Oct Bool) : (s.withTable m c d).draws = s.draws := rfl
@[simp] theorem State.withTable_agenda (m : Memory) (c : Word) (d : Oct Bool) : (s.withTable m c d).agenda = s.agenda := rfl
@[simp] theorem State.withTable_replies (m : Memory) (c : Word) (d : Oct Bool) : (s.withTable m c d).replies = s.replies := rfl
@[simp] theorem State.withTable_faulted (m : Memory) (c : Word) (d : Oct Bool) : (s.withTable m c d).faulted = s.faulted := rfl

/-! ## State.discardKr -/

@[simp] theorem State.discardKr_st : (s.discardKr).st = s.st := rfl
@[simp] theorem State.discardKr_mkey : (s.discardKr).mkey = s.mkey := rfl
@[simp] theorem State.discardKr_sk : (s.discardKr).sk = s.sk := rfl
@[simp] theorem State.discardKr_cfg : (s.discardKr).cfg = s.cfg := rfl
@[simp] theorem State.discardKr_range : (s.discardKr).range = s.range := rfl
@[simp] theorem State.discardKr_ridx : (s.discardKr).ridx = s.ridx := rfl
@[simp] theorem State.discardKr_tblCfg : (s.discardKr).tblCfg = s.tblCfg := rfl
@[simp] theorem State.discardKr_maxSteps : (s.discardKr).maxSteps = s.maxSteps := rfl
@[simp] theorem State.discardKr_busy : (s.discardKr).busy = s.busy := rfl
@[simp] theorem State.discardKr_tblValid : (s.discardKr).tblValid = s.tblValid := rfl
@[simp] theorem State.discardKr_err : (s.discardKr).err = s.err := rfl
@[simp] theorem State.discardKr_cause : (s.discardKr).cause = s.cause := rfl
@[simp] theorem State.discardKr_cur : (s.discardKr).cur = s.cur := rfl
@[simp] theorem State.discardKr_stDef : (s.discardKr).stDef = s.stDef := rfl
@[simp] theorem State.discardKr_mkeyDef : (s.discardKr).mkeyDef = s.mkeyDef := rfl
@[simp] theorem State.discardKr_krDef : (s.discardKr).krDef = Oct.all8 true := rfl
@[simp] theorem State.discardKr_skDef : (s.discardKr).skDef = s.skDef := rfl
@[simp] theorem State.discardKr_draws : (s.discardKr).draws = s.draws + 8 := rfl
@[simp] theorem State.discardKr_agenda : (s.discardKr).agenda = s.agenda := rfl
@[simp] theorem State.discardKr_replies : (s.discardKr).replies = s.replies := rfl
@[simp] theorem State.discardKr_faulted : (s.discardKr).faulted = s.faulted := rfl

/-! ## State.issue -/

@[simp] theorem State.issue_st (v : Word) : (s.issue v).st = s.st := rfl
@[simp] theorem State.issue_mkey (v : Word) : (s.issue v).mkey = s.mkey := rfl
@[simp] theorem State.issue_kr (v : Word) : (s.issue v).kr = s.kr := rfl
@[simp] theorem State.issue_sk (v : Word) : (s.issue v).sk = s.sk := rfl
@[simp] theorem State.issue_cfg (v : Word) : (s.issue v).cfg = s.cfg := rfl
@[simp] theorem State.issue_range (v : Word) : (s.issue v).range = s.range := rfl
@[simp] theorem State.issue_ridx (v : Word) : (s.issue v).ridx = s.ridx := rfl
@[simp] theorem State.issue_tblCfg (v : Word) : (s.issue v).tblCfg = s.tblCfg := rfl
@[simp] theorem State.issue_maxSteps (v : Word) : (s.issue v).maxSteps = s.maxSteps := rfl
@[simp] theorem State.issue_busy (v : Word) : (s.issue v).busy = true := rfl
@[simp] theorem State.issue_tblValid (v : Word) : (s.issue v).tblValid = s.tblValid := rfl
@[simp] theorem State.issue_err (v : Word) : (s.issue v).err = .none := rfl
@[simp] theorem State.issue_cause (v : Word) : (s.issue v).cause = Cause.clear := rfl
@[simp] theorem State.issue_cur (v : Word) : (s.issue v).cur = v := rfl
@[simp] theorem State.issue_stDef (v : Word) : (s.issue v).stDef = s.stDef := rfl
@[simp] theorem State.issue_mkeyDef (v : Word) : (s.issue v).mkeyDef = s.mkeyDef := rfl
@[simp] theorem State.issue_krDef (v : Word) : (s.issue v).krDef = s.krDef := rfl
@[simp] theorem State.issue_skDef (v : Word) : (s.issue v).skDef = s.skDef := rfl
@[simp] theorem State.issue_draws (v : Word) : (s.issue v).draws = s.draws := rfl
@[simp] theorem State.issue_agenda (v : Word) : (s.issue v).agenda = s.agenda := rfl
@[simp] theorem State.issue_replies (v : Word) : (s.issue v).replies = s.replies := rfl
@[simp] theorem State.issue_faulted (v : Word) : (s.issue v).faulted = s.faulted := rfl

/-! ## State.complete -/

@[simp] theorem State.complete_st (e : ErrCode) (c : Cause) : (s.complete e c).st = s.st := rfl
@[simp] theorem State.complete_mkey (e : ErrCode) (c : Cause) : (s.complete e c).mkey = s.mkey := rfl
@[simp] theorem State.complete_kr (e : ErrCode) (c : Cause) : (s.complete e c).kr = s.kr := rfl
@[simp] theorem State.complete_sk (e : ErrCode) (c : Cause) : (s.complete e c).sk = s.sk := rfl
@[simp] theorem State.complete_cfg (e : ErrCode) (c : Cause) : (s.complete e c).cfg = s.cfg := rfl
@[simp] theorem State.complete_range (e : ErrCode) (c : Cause) : (s.complete e c).range = s.range := rfl
@[simp] theorem State.complete_ridx (e : ErrCode) (c : Cause) : (s.complete e c).ridx = s.ridx := rfl
@[simp] theorem State.complete_tblCfg (e : ErrCode) (c : Cause) : (s.complete e c).tblCfg = s.tblCfg := rfl
@[simp] theorem State.complete_maxSteps (e : ErrCode) (c : Cause) : (s.complete e c).maxSteps = s.maxSteps := rfl
@[simp] theorem State.complete_busy (e : ErrCode) (c : Cause) : (s.complete e c).busy = false := rfl
@[simp] theorem State.complete_tblValid (e : ErrCode) (c : Cause) : (s.complete e c).tblValid = s.tblValid := rfl
@[simp] theorem State.complete_err (e : ErrCode) (c : Cause) : (s.complete e c).err = e := rfl
@[simp] theorem State.complete_cause (e : ErrCode) (c : Cause) : (s.complete e c).cause = c := rfl
@[simp] theorem State.complete_cur (e : ErrCode) (c : Cause) : (s.complete e c).cur = s.cur := rfl
@[simp] theorem State.complete_stDef (e : ErrCode) (c : Cause) : (s.complete e c).stDef = s.stDef := rfl
@[simp] theorem State.complete_mkeyDef (e : ErrCode) (c : Cause) : (s.complete e c).mkeyDef = s.mkeyDef := rfl
@[simp] theorem State.complete_krDef (e : ErrCode) (c : Cause) : (s.complete e c).krDef = s.krDef := rfl
@[simp] theorem State.complete_skDef (e : ErrCode) (c : Cause) : (s.complete e c).skDef = s.skDef := rfl
@[simp] theorem State.complete_draws (e : ErrCode) (c : Cause) : (s.complete e c).draws = s.draws := rfl
@[simp] theorem State.complete_agenda (e : ErrCode) (c : Cause) : (s.complete e c).agenda = s.agenda := rfl
@[simp] theorem State.complete_replies (e : ErrCode) (c : Cause) : (s.complete e c).replies = s.replies := rfl
@[simp] theorem State.complete_faulted (e : ErrCode) (c : Cause) : (s.complete e c).faulted = s.faulted := rfl

/-! ## State.takeError -/

@[simp] theorem State.takeError_st (e : CommandError) : (s.takeError e).st = s.st := rfl
@[simp] theorem State.takeError_mkey (e : CommandError) : (s.takeError e).mkey = s.mkey := rfl
@[simp] theorem State.takeError_kr (e : CommandError) : (s.takeError e).kr = s.kr := rfl
@[simp] theorem State.takeError_sk (e : CommandError) : (s.takeError e).sk = s.sk := rfl
@[simp] theorem State.takeError_cfg (e : CommandError) : (s.takeError e).cfg = s.cfg := rfl
@[simp] theorem State.takeError_range (e : CommandError) : (s.takeError e).range = s.range := rfl
@[simp] theorem State.takeError_ridx (e : CommandError) : (s.takeError e).ridx = s.ridx := rfl
@[simp] theorem State.takeError_tblCfg (e : CommandError) : (s.takeError e).tblCfg = s.tblCfg := rfl
@[simp] theorem State.takeError_maxSteps (e : CommandError) : (s.takeError e).maxSteps = s.maxSteps := rfl
@[simp] theorem State.takeError_busy (e : CommandError) : (s.takeError e).busy = false := rfl
@[simp] theorem State.takeError_tblValid (e : CommandError) : (s.takeError e).tblValid = s.tblValid := rfl
@[simp] theorem State.takeError_err (e : CommandError) : (s.takeError e).err = e.err := rfl
@[simp] theorem State.takeError_cause (e : CommandError) : (s.takeError e).cause = e.cause := rfl
@[simp] theorem State.takeError_cur (e : CommandError) : (s.takeError e).cur = s.cur := rfl
@[simp] theorem State.takeError_stDef (e : CommandError) : (s.takeError e).stDef = s.stDef := rfl
@[simp] theorem State.takeError_mkeyDef (e : CommandError) : (s.takeError e).mkeyDef = s.mkeyDef := rfl
@[simp] theorem State.takeError_krDef (e : CommandError) : (s.takeError e).krDef = s.krDef := rfl
@[simp] theorem State.takeError_skDef (e : CommandError) : (s.takeError e).skDef = s.skDef := rfl
@[simp] theorem State.takeError_draws (e : CommandError) : (s.takeError e).draws = s.draws := rfl
@[simp] theorem State.takeError_agenda (e : CommandError) : (s.takeError e).agenda = s.agenda := rfl
@[simp] theorem State.takeError_replies (e : CommandError) : (s.takeError e).replies = s.replies := rfl
@[simp] theorem State.takeError_faulted (e : CommandError) : (s.takeError e).faulted = s.faulted := rfl

/-! ## State.withAgenda -/

@[simp] theorem State.withAgenda_st (l : List Event) : (s.withAgenda l).st = s.st := rfl
@[simp] theorem State.withAgenda_mkey (l : List Event) : (s.withAgenda l).mkey = s.mkey := rfl
@[simp] theorem State.withAgenda_kr (l : List Event) : (s.withAgenda l).kr = s.kr := rfl
@[simp] theorem State.withAgenda_sk (l : List Event) : (s.withAgenda l).sk = s.sk := rfl
@[simp] theorem State.withAgenda_cfg (l : List Event) : (s.withAgenda l).cfg = s.cfg := rfl
@[simp] theorem State.withAgenda_range (l : List Event) : (s.withAgenda l).range = s.range := rfl
@[simp] theorem State.withAgenda_ridx (l : List Event) : (s.withAgenda l).ridx = s.ridx := rfl
@[simp] theorem State.withAgenda_tblCfg (l : List Event) : (s.withAgenda l).tblCfg = s.tblCfg := rfl
@[simp] theorem State.withAgenda_maxSteps (l : List Event) : (s.withAgenda l).maxSteps = s.maxSteps := rfl
@[simp] theorem State.withAgenda_busy (l : List Event) : (s.withAgenda l).busy = s.busy := rfl
@[simp] theorem State.withAgenda_tblValid (l : List Event) : (s.withAgenda l).tblValid = s.tblValid := rfl
@[simp] theorem State.withAgenda_err (l : List Event) : (s.withAgenda l).err = s.err := rfl
@[simp] theorem State.withAgenda_cause (l : List Event) : (s.withAgenda l).cause = s.cause := rfl
@[simp] theorem State.withAgenda_cur (l : List Event) : (s.withAgenda l).cur = s.cur := rfl
@[simp] theorem State.withAgenda_stDef (l : List Event) : (s.withAgenda l).stDef = s.stDef := rfl
@[simp] theorem State.withAgenda_mkeyDef (l : List Event) : (s.withAgenda l).mkeyDef = s.mkeyDef := rfl
@[simp] theorem State.withAgenda_krDef (l : List Event) : (s.withAgenda l).krDef = s.krDef := rfl
@[simp] theorem State.withAgenda_skDef (l : List Event) : (s.withAgenda l).skDef = s.skDef := rfl
@[simp] theorem State.withAgenda_draws (l : List Event) : (s.withAgenda l).draws = s.draws := rfl
@[simp] theorem State.withAgenda_agenda (l : List Event) : (s.withAgenda l).agenda = l := rfl
@[simp] theorem State.withAgenda_replies (l : List Event) : (s.withAgenda l).replies = s.replies := rfl
@[simp] theorem State.withAgenda_faulted (l : List Event) : (s.withAgenda l).faulted = s.faulted := rfl

/-! ## State.applyReset -/

@[simp] theorem State.applyReset_st : (s.applyReset).st = Quad.all4 0x0000 := rfl
@[simp] theorem State.applyReset_mkey : (s.applyReset).mkey = Oct.all8 0x0000 := rfl
@[simp] theorem State.applyReset_kr : (s.applyReset).kr = Oct.all8 0x0000 := rfl
@[simp] theorem State.applyReset_sk : (s.applyReset).sk = [] := rfl
@[simp] theorem State.applyReset_cfg : (s.applyReset).cfg = 0x0308 := rfl
@[simp] theorem State.applyReset_range : (s.applyReset).range = 0x0000 := rfl
@[simp] theorem State.applyReset_ridx : (s.applyReset).ridx = 0x0000 := rfl
@[simp] theorem State.applyReset_tblCfg : (s.applyReset).tblCfg = 0x0000 := rfl
@[simp] theorem State.applyReset_maxSteps : (s.applyReset).maxSteps = s.maxSteps := rfl
@[simp] theorem State.applyReset_busy : (s.applyReset).busy = false := rfl
@[simp] theorem State.applyReset_tblValid : (s.applyReset).tblValid = false := rfl
@[simp] theorem State.applyReset_err : (s.applyReset).err = .none := rfl
@[simp] theorem State.applyReset_cause : (s.applyReset).cause = Cause.clear := rfl
@[simp] theorem State.applyReset_cur : (s.applyReset).cur = 0x0000 := rfl
@[simp] theorem State.applyReset_stDef : (s.applyReset).stDef = Quad.all4 false := rfl
@[simp] theorem State.applyReset_mkeyDef : (s.applyReset).mkeyDef = Oct.all8 false := rfl
@[simp] theorem State.applyReset_krDef : (s.applyReset).krDef = Oct.all8 false := rfl
@[simp] theorem State.applyReset_skDef : (s.applyReset).skDef = Oct.all8 false := rfl
@[simp] theorem State.applyReset_draws : (s.applyReset).draws = s.draws := rfl
@[simp] theorem State.applyReset_agenda : (s.applyReset).agenda = s.agenda := rfl
@[simp] theorem State.applyReset_replies : (s.applyReset).replies = s.replies := rfl
@[simp] theorem State.applyReset_faulted : (s.applyReset).faulted = s.faulted := rfl

/-! ## State.noteUse -/

@[simp] theorem State.noteUse_st (d : Bool) : (s.noteUse d).st = s.st := rfl
@[simp] theorem State.noteUse_mkey (d : Bool) : (s.noteUse d).mkey = s.mkey := rfl
@[simp] theorem State.noteUse_kr (d : Bool) : (s.noteUse d).kr = s.kr := rfl
@[simp] theorem State.noteUse_sk (d : Bool) : (s.noteUse d).sk = s.sk := rfl
@[simp] theorem State.noteUse_cfg (d : Bool) : (s.noteUse d).cfg = s.cfg := rfl
@[simp] theorem State.noteUse_range (d : Bool) : (s.noteUse d).range = s.range := rfl
@[simp] theorem State.noteUse_ridx (d : Bool) : (s.noteUse d).ridx = s.ridx := rfl
@[simp] theorem State.noteUse_tblCfg (d : Bool) : (s.noteUse d).tblCfg = s.tblCfg := rfl
@[simp] theorem State.noteUse_maxSteps (d : Bool) : (s.noteUse d).maxSteps = s.maxSteps := rfl
@[simp] theorem State.noteUse_busy (d : Bool) : (s.noteUse d).busy = s.busy := rfl
@[simp] theorem State.noteUse_tblValid (d : Bool) : (s.noteUse d).tblValid = s.tblValid := rfl
@[simp] theorem State.noteUse_err (d : Bool) : (s.noteUse d).err = s.err := rfl
@[simp] theorem State.noteUse_cause (d : Bool) : (s.noteUse d).cause = s.cause := rfl
@[simp] theorem State.noteUse_cur (d : Bool) : (s.noteUse d).cur = s.cur := rfl
@[simp] theorem State.noteUse_stDef (d : Bool) : (s.noteUse d).stDef = s.stDef := rfl
@[simp] theorem State.noteUse_mkeyDef (d : Bool) : (s.noteUse d).mkeyDef = s.mkeyDef := rfl
@[simp] theorem State.noteUse_krDef (d : Bool) : (s.noteUse d).krDef = s.krDef := rfl
@[simp] theorem State.noteUse_skDef (d : Bool) : (s.noteUse d).skDef = s.skDef := rfl
@[simp] theorem State.noteUse_draws (d : Bool) : (s.noteUse d).draws = s.draws := rfl
@[simp] theorem State.noteUse_agenda (d : Bool) : (s.noteUse d).agenda = s.agenda := rfl
@[simp] theorem State.noteUse_replies (d : Bool) : (s.noteUse d).replies = s.replies := rfl
@[simp] theorem State.noteUse_faulted (d : Bool) : (s.noteUse d).faulted = (s.faulted || !d) := rfl
@[simp] theorem State.noteUse_true : s.noteUse true = s := by simp [State.noteUse]

end Sys2Proof.Machine
end

