-- ==== Sys2Proof/Laws/Words.lean ====
section
/-! SUPPORT. The small lemmas of indexed words and branches: an element read after a write. -/

namespace Sys2Proof.Machine

variable {α : Type}

theorem Quad.get_set_same (q : Quad α) (i : Fin 4) (v : α) : (q.set i v).get i = v := by
  fin_cases i <;> rfl

theorem Quad.get_set_other (q : Quad α) {i j : Fin 4} (v : α) (h : i ≠ j) : (q.set i v).get j = q.get j := by
  fin_cases i <;> fin_cases j <;> first | rfl | exact absurd rfl h

theorem Oct.get_set_same (k : Oct α) (i : Fin 8) (v : α) : (k.set i v).get i = v := by
  fin_cases i <;> rfl

theorem Oct.get_set_other (k : Oct α) {i j : Fin 8} (v : α) (h : i ≠ j) : (k.set i v).get j = k.get j := by
  fin_cases i <;> fin_cases j <;> first | rfl | exact absurd rfl h

@[simp] theorem Quad.branch_setBranch_same (q : Quad α) (b : Branch) (p : α × α) : (q.setBranch b p).branch b = p := by
  cases b <;> rfl

@[simp] theorem Quad.branch_setBranch_other (q : Quad α) (b : Branch) (p : α × α) :
    (q.setBranch b p).branch (otherBranch b) = q.branch (otherBranch b) := by
  cases b <;> rfl

theorem Quad.ext_branch {q r : Quad α} (h0 : q.branch .b0 = r.branch .b0) (h1 : q.branch .b1 = r.branch .b1) : q = r := by
  cases q; cases r; simp_all [Quad.branch]

theorem Quad.ext_get {q r : Quad α} (h : ∀ i, q.get i = r.get i) : q = r := by
  obtain ⟨a, b, c, d⟩ := q
  obtain ⟨a', b', c', d'⟩ := r
  have h0 : a = a' := h 0
  have h1 : b = b' := h 1
  have h2 : c = c' := h 2
  have h3 : d = d' := h 3
  rw [h0, h1, h2, h3]

theorem Oct.ext_get {k l : Oct α} (h : ∀ i, k.get i = l.get i) : k = l := by
  obtain ⟨a0, a1, a2, a3, a4, a5, a6, a7⟩ := k
  obtain ⟨b0, b1, b2, b3, b4, b5, b6, b7⟩ := l
  have h0 : a0 = b0 := h 0
  have h1 : a1 = b1 := h 1
  have h2 : a2 = b2 := h 2
  have h3 : a3 = b3 := h 3
  have h4 : a4 = b4 := h 4
  have h5 : a5 = b5 := h 5
  have h6 : a6 = b6 := h 6
  have h7 : a7 = b7 := h 7
  rw [h0, h1, h2, h3, h4, h5, h6, h7]

theorem Oct.getElem_toList (k : Oct α) (i : Fin 8) : k.toList[i.val]? = some (k.get i) := by
  fin_cases i <;> rfl

theorem Quad.every_iff (q : Quad Bool) : q.every = true ↔ ∀ i, q.get i = true := by
  constructor
  · intro h i
    simp only [Quad.every, Bool.and_eq_true] at h
    fin_cases i <;> simp [Quad.get, h]
  · intro h
    simpa [Quad.every, Quad.get, and_assoc] using And.intro (h 0) (And.intro (h 1) (And.intro (h 2) (h 3)))

theorem Oct.every_iff (k : Oct Bool) : k.every = true ↔ ∀ i, k.get i = true := by
  constructor
  · intro h i
    simp only [Oct.every, Bool.and_eq_true] at h
    fin_cases i <;> simp [Oct.get, h]
  · intro h
    simpa [Oct.every, Oct.get, and_assoc] using
      And.intro (h 0) (And.intro (h 1) (And.intro (h 2) (And.intro (h 3) (And.intro (h 4) (And.intro (h 5)
        (And.intro (h 6) (h 7)))))))

@[simp] theorem Quad.get_all4 (x : α) (i : Fin 4) : (Quad.all4 x).get i = x := by fin_cases i <;> rfl

@[simp] theorem Oct.get_all8 (x : α) (i : Fin 8) : (Oct.all8 x).get i = x := by fin_cases i <;> rfl

end Sys2Proof.Machine
end

