-- ==== Sys2Proof/Laws/Defined.lean ====
section
/-! SUPPORT. Definedness (10_state.md R38): what each unit's definedness bits say, as one equivalence per unit, and that
a unit gives equal defined words for operands whose defined words are equal. -/

namespace Sys2Proof.Machine

/-- The words of the pair that d marks are equal. -/
def AgreePair (d : Bool × Bool) (p q : Word × Word) : Prop := (d.1 = true → p.1 = q.1) ∧ (d.2 = true → p.2 = q.2)

/-- The words of ST that d marks are equal. -/
def AgreeQuad (d : Quad Bool) (x y : Quad Word) : Prop := ∀ b, AgreePair (d.branch b) (x.branch b) (y.branch b)

/-- The words of subkey entry e below `count` that skd marks are equal. -/
def AgreeEntry (skd : Nat → Nat → Bool) (sk sk' : Nat → Nat → Word) (e count : Nat) : Prop :=
  ∀ w, w < count → skd e w = true → sk e w = sk' e w

theorem agreeQuad_iff (d : Quad Bool) (x y : Quad Word) :
    AgreeQuad d x y ↔ ∀ i, d.get i = true → x.get i = y.get i := by
  constructor
  · intro h i
    have h0 := h .b0
    have h1 := h .b1
    fin_cases i
    · exact h0.1
    · exact h0.2
    · exact h1.1
    · exact h1.2
  · intro h b
    cases b
    · exact ⟨h 0, h 1⟩
    · exact ⟨h 2, h 3⟩

/-! ## One round -/

/-- Two operands whose words are equal where both are marked are equal. -/
theorem AgreePair.both {d : Bool × Bool} {p q : Word × Word} (h : AgreePair d p q) (h1 : d.1 = true) (h2 : d.2 = true) :
    p = q := Prod.ext (h.1 h1) (h.2 h2)

/-- A unit that mixes both words of a pair keeps agreement. -/
theorem AgreePair.mixed {d : Bool × Bool} {p q : Word × Word} (h : AgreePair d p q) (f : Word → Word → Word × Word) :
    AgreePair (roundDef d) (f p.1 p.2) (f q.1 q.2) := by
  constructor <;> intro hd <;> simp only [roundDef, Bool.and_eq_true] at hd <;> rw [h.both hd.1 hd.2]

/-- XORing in words that agree keeps agreement. -/
theorem AgreePair.xor {d : Bool × Bool} {p q : Word × Word} (h : AgreePair d p q) {a b : Bool} {u u' v v' : Word}
    (hu : a = true → u = u') (hv : b = true → v = v') :
    AgreePair (d.1 && a, d.2 && b) (p.1 ^^^ u, p.2 ^^^ v) (q.1 ^^^ u', q.2 ^^^ v') := by
  constructor <;> intro hd <;> simp only [Bool.and_eq_true] at hd
  · show p.1 ^^^ u = q.1 ^^^ u'
    rw [h.1 hd.1, hu hd.2]
  · show p.2 ^^^ v = q.2 ^^^ v'
    rw [h.2 hd.1, hv hd.2]

/-! ## The rounds of one branch -/

theorem encPairDef_succ (skd : Nat → Nat → Bool) (e r : Nat) (d : Bool × Bool) :
    encPairDef skd e (r + 1) d =
      roundDef ((encPairDef skd e r d).1 && skd e (2 * r), (encPairDef skd e r d).2 && skd e (2 * r + 1)) := by
  simp [encPairDef, List.range_succ]

theorem decPairDef_succ (skd : Nat → Nat → Bool) (e r : Nat) (d : Bool × Bool) :
    decPairDef skd e (r + 1) d =
      decPairDef skd e r ((roundDef d).1 && skd e (2 * r), (roundDef d).2 && skd e (2 * r + 1)) := by
  simp [decPairDef, List.range_succ]

theorem encRounds_agree {skd : Nat → Nat → Bool} {sk sk' : Nat → Nat → Word} {e r : Nat}
    (hs : AgreeEntry skd sk sk' e (2 * r)) {d : Bool × Bool} {p q : Word × Word} (h : AgreePair d p q) :
    AgreePair (encPairDef skd e r d) (encRounds sk e r p) (encRounds sk' e r q) := by
  induction r with
  | zero => exact h
  | succ r ih =>
    rw [encPairDef_succ]
    exact ((ih fun w hw => hs w (by omega)).xor (hs _ (by omega)) (hs _ (by omega))).mixed roundA

theorem decRounds_agree {skd : Nat → Nat → Bool} {sk sk' : Nat → Nat → Word} {e r : Nat}
    (hs : AgreeEntry skd sk sk' e (2 * r)) {d : Bool × Bool} {p q : Word × Word} (h : AgreePair d p q) :
    AgreePair (decPairDef skd e r d) (decRounds sk e r p) (decRounds sk' e r q) := by
  induction r generalizing d p q with
  | zero => exact h
  | succ r ih =>
    rw [decPairDef_succ]
    exact ih (fun w hw => hs w (by omega)) ((h.mixed roundAInv).xor (hs _ (by omega)) (hs _ (by omega)))

/-- After at least one round each word of a branch needs both words of the branch and the whole entry. -/
theorem encPairDef_iff (skd : Nat → Nat → Bool) (e r : Nat) (d : Bool × Bool) (hr : 1 ≤ r) :
    ((encPairDef skd e r d).1 = true ↔ d.1 = true ∧ d.2 = true ∧ ∀ w, w < 2 * r → skd e w = true) ∧
    ((encPairDef skd e r d).2 = true ↔ d.1 = true ∧ d.2 = true ∧ ∀ w, w < 2 * r → skd e w = true) := by
  have step : ∀ k, (∀ w, w < 2 * (k + 1) → skd e w = true) ↔
      (∀ w, w < 2 * k → skd e w = true) ∧ skd e (2 * k) = true ∧ skd e (2 * k + 1) = true := by
    refine fun k => ⟨fun h => ⟨fun w hw => h w (by omega), h _ (by omega), h _ (by omega)⟩, fun h w hw => ?_⟩
    rcases (by omega : w < 2 * k ∨ w = 2 * k ∨ w = 2 * k + 1) with hk | rfl | rfl
    · exact h.1 w hk
    · exact h.2.1
    · exact h.2.2
  induction r with
  | zero => omega
  | succ r ih =>
    rw [encPairDef_succ, step]
    simp only [roundDef, Bool.and_eq_true]
    rcases Nat.eq_zero_or_pos r with rfl | hr
    · simp [encPairDef, and_left_comm, and_assoc]
    · rw [(ih hr).1, (ih hr).2]
      tauto

/-- After the rounds are undone a word needs both words of the branch and the entry but for the other word's last XOR. -/
theorem decPairDef_iff (skd : Nat → Nat → Bool) (e r : Nat) (d : Bool × Bool) (hr : 1 ≤ r) :
    ((decPairDef skd e r d).1 = true ↔ (d.1 = true ∧ d.2 = true) ∧ ∀ w, w < 2 * r → w ≠ 1 → skd e w = true) ∧
    ((decPairDef skd e r d).2 = true ↔ (d.1 = true ∧ d.2 = true) ∧ ∀ w, w < 2 * r → w ≠ 0 → skd e w = true) := by
  have step : ∀ k j, 1 ≤ k → j < 2 → ((∀ w, w < 2 * (k + 1) → w ≠ j → skd e w = true) ↔
      (∀ w, w < 2 * k → w ≠ j → skd e w = true) ∧ skd e (2 * k) = true ∧ skd e (2 * k + 1) = true) := by
    refine fun k j hk hj => ⟨fun h => ⟨fun w hw hj => h w (by omega) hj, h _ (by omega) (by omega), h _ (by omega)
      (by omega)⟩, fun h w hw hwj => ?_⟩
    rcases (by omega : w < 2 * k ∨ w = 2 * k ∨ w = 2 * k + 1) with hk | rfl | rfl
    · exact h.1 w hk hwj
    · exact h.2.1
    · exact h.2.2
  induction r generalizing d with
  | zero => omega
  | succ r ih =>
    rw [decPairDef_succ]
    rcases Nat.eq_zero_or_pos r with rfl | hr
    · have one : ∀ j k, j < 2 → k < 2 → j ≠ k → ((∀ w, w < 2 * (0 + 1) → w ≠ j → skd e w = true) ↔ skd e k = true) := by
        refine fun j k hj hk hjk => ⟨fun h => h k (by omega) (Ne.symm hjk), fun h w hw hwj => ?_⟩
        rwa [show w = k by omega]
      rw [one 1 0 (by omega) (by omega) (by omega), one 0 1 (by omega) (by omega) (by omega)]
      simp [decPairDef, roundDef]
    · rw [(ih _ hr).1, (ih _ hr).2, step r 1 hr (by omega), step r 0 hr (by omega)]
      simp only [roundDef, Bool.and_eq_true]
      tauto

/-! ## Steps and ranges -/

theorem linL_agree {d : Quad Bool} {x y : Quad Word} (h : AgreeQuad d x y) : AgreeQuad (linLDef d) (linL x) (linL y) := by
  obtain ⟨h0, h1⟩ := h .b0
  obtain ⟨h2, h3⟩ := h .b1
  simp only [Quad.branch] at h0 h1 h2 h3
  intro b
  cases b <;> constructor <;> intro hd <;> simp only [linLDef, Quad.branch, Bool.and_eq_true] at hd <;>
    simp_all [linL, Quad.branch]

theorem linLInv_agree {d : Quad Bool} {x y : Quad Word} (h : AgreeQuad d x y) :
    AgreeQuad (linLInvDef d) (linLInv x) (linLInv y) := by
  obtain ⟨h0, h1⟩ := h .b0
  obtain ⟨h2, h3⟩ := h .b1
  simp only [Quad.branch] at h0 h1 h2 h3
  intro b
  cases b <;> constructor <;> intro hd <;> simp only [linLInvDef, Quad.branch, Bool.and_eq_true] at hd <;>
    simp_all [linLInv, Quad.branch]

/-- Replacing a branch by pairs that agree keeps agreement. -/
theorem AgreeQuad.setBranch {d : Quad Bool} {x y : Quad Word} (h : AgreeQuad d x y) (b : Branch) {e : Bool × Bool}
    {p q : Word × Word} (hp : AgreePair e p q) : AgreeQuad (d.setBranch b e) (x.setBranch b p) (y.setBranch b q) := by
  intro c
  have h0 := h .b0
  have h1 := h .b1
  cases b <;> cases c <;> first | exact hp | exact h0 | exact h1

theorem encStep_agree {skd : Nat → Nat → Bool} {sk sk' : Nat → Nat → Word} {r s : Nat}
    (hs : ∀ b, AgreeEntry skd sk sk' (subkeyEntry s b) (2 * r)) {d : Quad Bool} {x y : Quad Word} (h : AgreeQuad d x y) :
    AgreeQuad (encStepDef skd r s d) (encStep sk r s x) (encStep sk' r s y) :=
  linL_agree ((h.setBranch .b0 (encRounds_agree (hs .b0) (h .b0))).setBranch .b1 (encRounds_agree (hs .b1) (h .b1)))

theorem decStep_agree {skd : Nat → Nat → Bool} {sk sk' : Nat → Nat → Word} {r s : Nat}
    (hs : ∀ b, AgreeEntry skd sk sk' (subkeyEntry s b) (2 * r)) {d : Quad Bool} {x y : Quad Word} (h : AgreeQuad d x y) :
    AgreeQuad (decStepDef skd r s d) (decStep sk r s x) (decStep sk' r s y) :=
  have hl := linLInv_agree h
  (hl.setBranch .b0 (decRounds_agree (hs .b0) (hl .b0))).setBranch .b1 (decRounds_agree (hs .b1) (hl .b1))

theorem whiten_agree {skd : Nat → Nat → Bool} {sk sk' : Nat → Nat → Word} {n : Nat} (hs : AgreeEntry skd sk sk' (2 * n) 4)
    {d : Quad Bool} {x y : Quad Word} (h : AgreeQuad d x y) :
    AgreeQuad (whitenDef skd n d) (whiten sk n x) (whiten sk' n y) := by
  intro b
  cases b
  · exact (h .b0).xor (hs 0 (by omega)) (hs 1 (by omega))
  · exact (h .b1).xor (hs 2 (by omega)) (hs 3 (by omega))

theorem encSteps_agree {skd : Nat → Nat → Bool} {sk sk' : Nat → Nat → Word} {r f k : Nat}
    (hs : ∀ s b, f ≤ s → s < f + k → AgreeEntry skd sk sk' (subkeyEntry s b) (2 * r)) {d : Quad Bool} {x y : Quad Word}
    (h : AgreeQuad d x y) :
    AgreeQuad ((List.range' f k).foldl (fun d s => encStepDef skd r s d) d) (encSteps sk r f k x) (encSteps sk' r f k y) := by
  induction k with
  | zero => exact h
  | succ k ih =>
    rw [List.range'_concat, List.foldl_append, Nat.one_mul]
    exact encStep_agree (fun b => hs _ b (by omega) (by omega)) (ih fun s b h1 h2 => hs s b h1 (by omega))

theorem decSteps_agree {skd : Nat → Nat → Bool} {sk sk' : Nat → Nat → Word} {r f k : Nat}
    (hs : ∀ s b, f ≤ s → s < f + k → AgreeEntry skd sk sk' (subkeyEntry s b) (2 * r)) {d : Quad Bool} {x y : Quad Word}
    (h : AgreeQuad d x y) :
    AgreeQuad ((List.range' f k).foldr (fun s d => decStepDef skd r s d) d) (decSteps sk r f k x) (decSteps sk' r f k y) := by
  induction k generalizing d x y with
  | zero => exact h
  | succ k ih =>
    rw [List.range'_concat, List.foldr_append, Nat.one_mul]
    exact ih (fun s b h1 h2 => hs s b h1 (by omega)) (decStep_agree (fun b => hs _ b (by omega) (by omega)) h)

/-- Tables that agree on the marked words of the entries and words that a range uses. -/
def AgreeTable (skd : Nat → Nat → Bool) (sk sk' : Nat → Nat → Word) (n r f t : Nat) : Prop :=
  (∀ s b, f ≤ s → s ≤ t → AgreeEntry skd sk sk' (subkeyEntry s b) (2 * r)) ∧ (t = n → AgreeEntry skd sk sk' (2 * n) 4)

theorem encRange_agree {skd : Nat → Nat → Bool} {sk sk' : Nat → Nat → Word} {n r f t : Nat}
    (hs : AgreeTable skd sk sk' n r f t) {d : Quad Bool} {x y : Quad Word} (h : AgreeQuad d x y) :
    AgreeQuad (encRangeDef skd n r f t d) (encRange sk n r f t x) (encRange sk' n r f t y) := by
  have hr := encSteps_agree (f := f) (k := t + 1 - f) (fun s b h1 h2 => hs.1 s b h1 (by omega)) h
  simp only [encRangeDef, encRange]
  split
  · exact whiten_agree (hs.2 ‹_›) hr
  · exact hr

theorem decRange_agree {skd : Nat → Nat → Bool} {sk sk' : Nat → Nat → Word} {n r f t : Nat}
    (hs : AgreeTable skd sk sk' n r f t) {d : Quad Bool} {x y : Quad Word} (h : AgreeQuad d x y) :
    AgreeQuad (decRangeDef skd n r f t d) (decRange sk n r f t x) (decRange sk' n r f t y) := by
  have steps : ∀ s b, f ≤ s → s < f + (t + 1 - f) → AgreeEntry skd sk sk' (subkeyEntry s b) (2 * r) :=
    fun s b h1 h2 => hs.1 s b h1 (by omega)
  simp only [decRangeDef, decRange]
  split
  · exact decSteps_agree steps (whiten_agree (hs.2 ‹_›) h)
  · exact decSteps_agree steps h

/-! ## The key permutation and the table -/

theorem keyPerm_agree {d : Oct Bool} {k l : Oct Word} (h : ∀ i, d.get i = true → k.get i = l.get i) (c : Nat) :
    ∀ i, (keyPermDef d).get i = true → (keyPerm k c).get i = (keyPerm l c).get i := by
  have h0 := h 0
  have h1 := h 1
  have h2 := h 2
  have h3 := h 3
  have h4 := h 4
  have h5 := h 5
  have h6 := h 6
  have h7 := h 7
  simp only [Oct.get] at h0 h1 h2 h3 h4 h5 h6 h7
  intro i
  fin_cases i <;> intro hd <;> simp only [Oct.get, keyPermDef, roundDef, Bool.and_eq_true] at hd <;>
    simp_all [Oct.get, keyPerm]

/-- Keys that agree on their defined words give tables that agree on theirs. -/
theorem keyAt_agree {d : Oct Bool} {k l : Oct Word} (h : ∀ i, d.get i = true → k.get i = l.get i) (c : Nat) :
    ∀ i, (keyDefAt d c).get i = true → (keyAt k c).get i = (keyAt l c).get i := by
  induction c with
  | zero => exact h
  | succ c ih => exact keyPerm_agree ih (c + 1)

/-- A wholly defined key gives a wholly defined table. -/
@[simp] theorem keyDefAt_all8 (c : Nat) : keyDefAt (Oct.all8 true) c = Oct.all8 true := by
  induction c with
  | zero => rfl
  | succ c ih => rw [keyDefAt, ih]; rfl

theorem State.skWordDef_get (s : State) (c : Nat) (w : Fin 8) : s.skWordDef c w.val = (keyDefAt s.skDef c).get w := by
  rw [State.skWordDef, Fin.ofNat_eq_cast, Fin.cast_val_eq_self]

/-- What it says that the operands of a range are defined. -/
theorem State.rangeDefined_iff (s : State) (f t : Nat) :
    s.rangeDefined f t = true ↔
      s.stDef.every = true ∧
      (∀ i b, f ≤ i → i ≤ t → ∀ w, w < 2 * s.tblRps → s.skWordDef (subkeyEntry i b) w = true) ∧
      (t = s.tblSteps → ∀ w, w < 4 → s.skWordDef (2 * s.tblSteps) w = true) := by
  have hb : ∀ P : Branch → Prop, (∀ b, P b) ↔ P .b0 ∧ P .b1 :=
    fun P => ⟨fun h => ⟨h _, h _⟩, fun h b => by cases b; exacts [h.1, h.2]⟩
  simp only [State.rangeDefined, State.entryDefined, Bool.and_eq_true, Bool.or_eq_true, List.all_eq_true,
    List.mem_range'_1, List.mem_range, decide_eq_true_eq, and_assoc, hb]
  refine and_congr_right fun _ => and_congr ?_ ?_
  · refine ⟨fun h i => ⟨fun h1 h2 => (h i ⟨h1, by omega⟩).1, fun h1 h2 => (h i ⟨h1, by omega⟩).2⟩,
      fun h i hi => ⟨(h i).1 hi.1 (by omega), (h i).2 hi.1 (by omega)⟩⟩
  · by_cases h : t = s.tblSteps <;> simp [h]

/-! ## All operands defined -/

theorem encPairDef_true {skd : Nat → Nat → Bool} {e r : Nat} (hs : ∀ w, w < 2 * r → skd e w = true) :
    encPairDef skd e r (true, true) = (true, true) := by
  induction r with
  | zero => rfl
  | succ r ih =>
    rw [encPairDef_succ, ih fun w hw => hs w (by omega), hs (2 * r) (by omega), hs (2 * r + 1) (by omega)]
    rfl

theorem decPairDef_true {skd : Nat → Nat → Bool} {e r : Nat} (hs : ∀ w, w < 2 * r → skd e w = true) :
    decPairDef skd e r (true, true) = (true, true) := by
  induction r with
  | zero => rfl
  | succ r ih =>
    rw [decPairDef_succ, hs (2 * r) (by omega), hs (2 * r + 1) (by omega)]
    exact ih fun w hw => hs w (by omega)

theorem encStepDef_true {skd : Nat → Nat → Bool} {r s : Nat}
    (hs : ∀ b w, w < 2 * r → skd (subkeyEntry s b) w = true) :
    encStepDef skd r s (Quad.all4 true) = Quad.all4 true := by
  simp [encStepDef, Quad.all4, Quad.branch, Quad.setBranch, encPairDef_true (hs .b0), encPairDef_true (hs .b1), linLDef]

theorem decStepDef_true {skd : Nat → Nat → Bool} {r s : Nat}
    (hs : ∀ b w, w < 2 * r → skd (subkeyEntry s b) w = true) :
    decStepDef skd r s (Quad.all4 true) = Quad.all4 true := by
  simp [decStepDef, Quad.all4, Quad.branch, Quad.setBranch, decPairDef_true (hs .b0), decPairDef_true (hs .b1),
    linLInvDef]

theorem whitenDef_true {skd : Nat → Nat → Bool} {n : Nat} (hs : ∀ w, w < 4 → skd (2 * n) w = true) :
    whitenDef skd n (Quad.all4 true) = Quad.all4 true := by
  simp [whitenDef, Quad.all4, hs]

/-- A range whose operands are all defined leaves all of ST defined, both ways. -/
theorem State.rangeDef_true {s : State} {f t : Nat} (h : s.rangeDefined f t = true) :
    encRangeDef s.skWordDef s.tblSteps s.tblRps f t s.stDef = Quad.all4 true ∧
    decRangeDef s.skWordDef s.tblSteps s.tblRps f t s.stDef = Quad.all4 true := by
  obtain ⟨hq, hs, hw⟩ := (s.rangeDefined_iff f t).mp h
  have hd : s.stDef = Quad.all4 true :=
    Quad.ext_get fun i => ((Quad.every_iff _).mp hq i).trans (Quad.get_all4 true i).symm
  have enc : ∀ k, f + k ≤ t + 1 →
      (List.range' f k).foldl (fun d i => encStepDef s.skWordDef s.tblRps i d) (Quad.all4 true) = Quad.all4 true := by
    intro k
    induction k with
    | zero => exact fun _ => rfl
    | succ k ih =>
      intro hk
      rw [List.range'_concat, List.foldl_append, ih (by omega), Nat.one_mul]
      exact encStepDef_true fun b w hw => hs _ b (by omega) (by omega) w hw
  have dec : ∀ k, f + k ≤ t + 1 →
      (List.range' f k).foldr (fun i d => decStepDef s.skWordDef s.tblRps i d) (Quad.all4 true) = Quad.all4 true := by
    intro k
    induction k with
    | zero => exact fun _ => rfl
    | succ k ih =>
      intro hk
      rw [List.range'_concat, List.foldr_append, List.foldr_cons, List.foldr_nil, Nat.one_mul,
        decStepDef_true fun b w hw => hs _ b (by omega) (by omega) w hw]
      exact ih (by omega)
  have full : f + (t + 1 - f) ≤ t + 1 ∨ t + 1 - f = 0 := by omega
  rw [hd]
  constructor
  · have hy : (List.range' f (t + 1 - f)).foldl (fun d i => encStepDef s.skWordDef s.tblRps i d) (Quad.all4 true) =
        Quad.all4 true := by
      rcases full with h1 | h1
      · exact enc _ h1
      · rw [h1]; rfl
    simp only [encRangeDef, hy]
    split
    · exact whitenDef_true (hw ‹_›)
    · rfl
  · have hy : (if t = s.tblSteps then whitenDef s.skWordDef s.tblSteps (Quad.all4 true) else Quad.all4 true) =
        Quad.all4 true := by
      split
      · exact whitenDef_true (hw ‹_›)
      · rfl
    rw [decRangeDef, hy]
    rcases full with h1 | h1
    · exact dec _ h1
    · rw [h1]; rfl

end Sys2Proof.Machine
end

