-- ==== Sys2Proof/Laws/Memory.lean ====
section
/-! SUPPORT. The table storage: what a read finds after a write, and that every operation keeps the canonical form and
the bounds. -/

namespace Sys2Proof.Machine

@[simp] theorem Memory.read_nil (a : Nat) : Memory.read [] a = Memory.unlisted := rfl

theorem Memory.read_cons (k : Nat) (v : Word) (m : Memory) (a : Nat) :
    Memory.read ((k, v) :: m) a = if k = a then v else Memory.read m a := rfl

/-- Below its first address a canonical storage lists nothing. -/
theorem Memory.read_below {lo a : Nat} {m : Memory} (h : m.wfFrom lo = true) (ha : a < lo) :
    m.read a = Memory.unlisted := by
  induction m generalizing lo with
  | nil => rfl
  | cons p m ih =>
    obtain ⟨k, v⟩ := p
    simp only [Memory.wfFrom, Bool.and_eq_true, decide_eq_true_eq] at h
    rw [Memory.read_cons, if_neg (by omega), ih h.2 (by omega)]

theorem Memory.wfFrom_mono {lo lo' : Nat} {m : Memory} (h : m.wfFrom lo = true) (hl : lo' ≤ lo) :
    m.wfFrom lo' = true := by
  cases m with
  | nil => rfl
  | cons p m =>
    simp only [Memory.wfFrom, Bool.and_eq_true, decide_eq_true_eq] at h ⊢
    exact ⟨⟨by omega, h.1.2⟩, h.2⟩

theorem Memory.wfFrom_push {lo a : Nat} {v : Word} {m : Memory} (hl : lo ≤ a) (h : m.wfFrom (a + 1) = true) :
    (Memory.push a v m).wfFrom lo = true := by
  unfold Memory.push
  split
  · exact Memory.wfFrom_mono h (by omega)
  · rename_i hv
    simp [Memory.wfFrom, hl, hv, h]

theorem Memory.wfFrom_write {lo a : Nat} (v : Word) {m : Memory} (h : m.wfFrom lo = true) (hl : lo ≤ a) :
    (m.write a v).wfFrom lo = true := by
  induction m generalizing lo with
  | nil => exact Memory.wfFrom_push hl rfl
  | cons p m ih =>
    obtain ⟨k, x⟩ := p
    have h' := h
    simp only [Memory.wfFrom, Bool.and_eq_true, decide_eq_true_eq] at h'
    simp only [Memory.write]
    split
    · refine Memory.wfFrom_push hl ?_
      simp [Memory.wfFrom, h'.1.2, h'.2]
      omega
    · split
      · rename_i hk
        subst hk
        exact Memory.wfFrom_push hl h'.2
      · simp only [Memory.wfFrom, Bool.and_eq_true, decide_eq_true_eq]
        exact ⟨h'.1, ih h'.2 (by omega)⟩

/-- A write keeps the canonical form. -/
theorem Memory.wf_write (m : Memory) (a : Nat) (v : Word) (h : m.wf = true) : (m.write a v).wf = true :=
  Memory.wfFrom_write v h (Nat.zero_le a)

/-- Writes at consecutive addresses keep the canonical form. -/
theorem Memory.wf_writeWords (vs : List Word) (m : Memory) (a : Nat) (h : m.wf = true) :
    (m.writeWords a vs).wf = true := by
  induction vs generalizing m a with
  | nil => exact h
  | cons v vs ih => exact ih _ _ (Memory.wf_write m a v h)

theorem Memory.read_push {lo a b : Nat} {v : Word} {m : Memory} (h : m.wfFrom lo = true) (ha : a < lo) :
    (Memory.push a v m).read b = if a = b then v else m.read b := by
  unfold Memory.push
  split
  · rename_i hv
    split
    · rename_i hab
      rw [← hab, Memory.read_below h ha, hv]
    · rfl
  · rfl

theorem Memory.read_write_from {lo : Nat} {m : Memory} (h : m.wfFrom lo = true) (a b : Nat) (v : Word) :
    (m.write a v).read b = if a = b then v else m.read b := by
  induction m generalizing lo with
  | nil => exact Memory.read_push (lo := a + 1) rfl (by omega)
  | cons p m ih =>
    obtain ⟨k, x⟩ := p
    have h' := h
    simp only [Memory.wfFrom, Bool.and_eq_true, decide_eq_true_eq] at h'
    simp only [Memory.write]
    split
    · refine Memory.read_push (lo := k) ?_ (by omega)
      simp [Memory.wfFrom, h'.1.2, h'.2]
    · split
      · rename_i hk
        subst hk
        rw [Memory.read_push h'.2 (by omega), Memory.read_cons]
        split <;> rfl
      · rw [Memory.read_cons, Memory.read_cons, ih h'.2]
        split
        · rw [if_neg (by omega)]
        · rfl

/-- A read after a write: the word written at its address, and what was there at every other. -/
theorem Memory.read_write {m : Memory} (h : m.wf = true) (a b : Nat) (v : Word) :
    (m.write a v).read b = if a = b then v else m.read b := Memory.read_write_from h a b v

/-- A read after writes at consecutive addresses. -/
theorem Memory.read_writeWords (vs : List Word) {m : Memory} (h : m.wf = true) (a b : Nat) :
    (m.writeWords a vs).read b = if a ≤ b then (vs[b - a]?).getD (m.read b) else m.read b := by
  induction vs generalizing m a with
  | nil => simp [Memory.writeWords]
  | cons v vs ih =>
    rw [Memory.writeWords, ih (Memory.wf_write m a v h), Memory.read_write h]
    by_cases hab : a = b
    · subst hab
      simp
    · by_cases hle : a ≤ b
      · obtain ⟨d, rfl⟩ : ∃ d, b = a + 1 + d := ⟨b - (a + 1), by omega⟩
        rw [if_pos (by omega), if_pos hle, if_neg hab, show a + 1 + d - (a + 1) = d by omega,
          show a + 1 + d - a = d + 1 by omega, List.getElem?_cons_succ]
      · rw [if_neg (by omega), if_neg hab, if_neg hle]

theorem Memory.within_push {lo hi a : Nat} {v : Word} {m : Memory} (h : m.within lo hi = true) (hl : lo ≤ a) (hh : a < hi) :
    (Memory.push a v m).within lo hi = true := by
  unfold Memory.push
  split
  · exact h
  · simp only [Memory.within, List.all_cons, Bool.and_eq_true, decide_eq_true_eq]
    exact ⟨⟨hl, hh⟩, h⟩

/-- A write inside the bounds keeps them. -/
theorem Memory.within_write {lo hi : Nat} (a : Nat) (v : Word) {m : Memory} (h : m.within lo hi = true) (hl : lo ≤ a)
    (hh : a < hi) : (m.write a v).within lo hi = true := by
  induction m with
  | nil => exact Memory.within_push rfl hl hh
  | cons p m ih =>
    obtain ⟨k, x⟩ := p
    have h' := h
    simp only [Memory.within, List.all_cons, Bool.and_eq_true, decide_eq_true_eq] at h'
    simp only [Memory.write]
    split
    · exact Memory.within_push h hl hh
    · split
      · exact Memory.within_push h'.2 hl hh
      · simp only [Memory.within, List.all_cons, Bool.and_eq_true, decide_eq_true_eq]
        exact ⟨h'.1, ih h'.2⟩

/-- Writes at consecutive addresses inside the bounds keep them. -/
theorem Memory.within_writeWords {lo hi : Nat} (vs : List Word) {m : Memory} (a : Nat) (h : m.within lo hi = true)
    (hl : lo ≤ a) (hh : a + vs.length ≤ hi) : (m.writeWords a vs).within lo hi = true := by
  induction vs generalizing m a with
  | nil => exact h
  | cons v vs ih =>
    rw [List.length_cons] at hh
    exact ih (a + 1) (Memory.within_write a v h hl (by omega)) (by omega) (by omega)

@[simp] theorem skAddr_zero : skAddr 0 0 = 0x100 := rfl

theorem State.reset_sk_wf : State.reset.sk.wf = true := rfl

end Sys2Proof.Machine
end

