-- ==== Sys2Proof/Laws/Ops.lean ====
section
/-! SUPPORT. What each shared operation can do, said once: the completion of a command, its error, the operations a
meaning is made of, and the table that KSCHED records. -/

namespace Sys2Proof.Machine

theorem State.finish_ok (s t : State) : s.finish (.ok t) = t.complete .none Cause.clear := rfl

theorem State.finish_error (s : State) (e : CommandError) : s.finish (.error e) = s.takeError e := rfl

/-- A command always completes: in what it computed, or in its own error. -/
theorem perform_next {d : Bool} {command : State → Except CommandError State} {s t : State}
    (h : perform d command s = .next t) :
    (∃ u, command s = .ok u ∧ t = (u.complete .none Cause.clear).noteUse d) ∨
    (∃ e, command s = .error e ∧ t = (s.takeError e).noteUse d) := by
  simp only [perform, Host.Outcome.next.injEq] at h
  cases hc : command s with
  | ok u => exact .inl ⟨u, rfl, by rw [← h, hc, State.finish_ok]⟩
  | error e => exact .inr ⟨e, rfl, by rw [← h, hc, State.finish_error]⟩

theorem perform_ok {d : Bool} {command : State → Except CommandError State} {s u : State} (h : command s = .ok u) :
    perform d command s = .next ((u.complete .none Cause.clear).noteUse d) := by rw [perform, h, State.finish_ok]

theorem perform_error {d : Bool} {command : State → Except CommandError State} {s : State} {e : CommandError}
    (h : command s = .error e) : perform d command s = .next ((s.takeError e).noteUse d) := by rw [perform, h, State.finish_error]

/-- A full range: NoSchedule, or the run over steps 1..N. -/
theorem fullRange_cases (run : State → Nat → Nat → State) (s : State) :
    (s.tblValid = false ∧ fullRange run s = .error .noSchedule) ∨
    (s.tblValid = true ∧ fullRange run s = .ok (run s 1 s.tblSteps)) := by
  unfold fullRange
  cases s.tblValid <;> simp

/-- A partial range: NoSchedule, RangeError, or the run over the steps of RANGE. -/
theorem partialRange_cases (run : State → Nat → Nat → State) (s : State) :
    (s.tblValid = false ∧ partialRange run s = .error .noSchedule) ∨
    (s.tblValid = true ∧ rangeOk s.tblSteps s.fromStep s.toStep = false ∧ partialRange run s = .error .rangeError) ∨
    (s.tblValid = true ∧ rangeOk s.tblSteps s.fromStep s.toStep = true ∧
      partialRange run s = .ok (run s s.fromStep s.toStep)) := by
  unfold partialRange
  cases s.tblValid <;> cases rangeOk s.tblSteps s.fromStep s.toStep <;> simp

/-- KSCHED: ConfigError with every cause, or the new table with KR discarded. -/
theorem ksched_cases (s : State) :
    (configCause s.maxSteps.toNat s.cfgSteps s.cfgRps ≠ Cause.clear ∧
      ksched s = .error (.configError (configCause s.maxSteps.toNat s.cfgSteps s.cfgRps))) ∨
    (configCause s.maxSteps.toNat s.cfgSteps s.cfgRps = Cause.clear ∧
      ksched s = .ok ((s.withTable (buildTable s.mkey s.cfgSteps s.cfgRps s.sk) (cfgWritable s.cfg)
        s.mkeyDef).discardKr)) := by
  unfold ksched
  by_cases h : configCause s.maxSteps.toNat s.cfgSteps s.cfgRps = Cause.clear <;> simp [h]

theorem rangeOk_iff (n f t : Nat) : rangeOk n f t = true ↔ 1 ≤ f ∧ f ≤ t ∧ t ≤ n := by
  simp [rangeOk, and_assoc]

/-- The configuration check passes exactly on the accepted configurations (00_scope.md R9). -/
theorem configCause_clear_iff (maxSteps n r : Nat) :
    configCause maxSteps n r = Cause.clear ↔ (1 ≤ n ∧ n ≤ maxSteps) ∧ 2 ≤ r ∧ r ≤ 4 := by
  simp only [configCause, Cause.clear, Cause.mk.injEq, decide_eq_false_iff_not]
  omega

theorem stepsField_lt (v : Word) : stepsField v < 256 := (v.extractLsb' 0 8).isLt

theorem rpsField_lt (v : Word) : rpsField v < 8 := (v.extractLsb' 8 3).isLt

theorem skAddr_lt {c c' w w' : Nat} (hc : c < c') (hw : w < 8) : skAddr c w < skAddr c' w' := by
  unfold skAddr
  omega

theorem skAddr_inj {c c' w w' : Nat} (hw : w < 8) (hw' : w' < 8) (h : skAddr c w = skAddr c' w') : c = c' ∧ w = w' := by
  unfold skAddr at h
  omega

/-- Recording entries keeps the canonical form. -/
theorem recordEntries_wf (r count c : Nat) (k : Oct Word) (m : Memory) (h : m.wf = true) :
    (recordEntries r count c k m).wf = true := by
  induction count generalizing c k m with
  | zero => exact h
  | succ count ih => exact ih _ _ _ (Memory.wf_writeWords _ m _ h)

theorem buildTable_wf (mk : Oct Word) (n r : Nat) (m : Memory) (h : m.wf = true) : (buildTable mk n r m).wf = true :=
  recordEntries_wf r _ 0 mk m h

theorem length_take_toList_le (k : Oct Word) (n : Nat) : (k.toList.take n).length ≤ 8 := by
  simp [Oct.toList]

/-- Recording entries stays inside the storage. -/
theorem recordEntries_within (r count c : Nat) (k : Oct Word) (m : Memory) (hi : Nat)
    (h : m.within (skAddr 0 0) hi = true) (hh : skAddr (c + count) 0 ≤ hi) :
    (recordEntries r count c k m).within (skAddr 0 0) hi = true := by
  induction count generalizing c k m with
  | zero => exact h
  | succ count ih =>
    refine ih (c + 1) _ _ (Memory.within_writeWords _ _ h ?_ ?_) ?_
    · unfold skAddr
      omega
    · have := length_take_toList_le k (2 * r)
      unfold skAddr at *
      omega
    · rw [show c + 1 + count = c + (count + 1) by omega]
      exact hh

theorem buildTable_within (mk : Oct Word) (n r : Nat) (m : Memory) (hi : Nat) (h : m.within (skAddr 0 0) hi = true)
    (hh : skAddr (2 * n + 1) 0 ≤ hi) : (buildTable mk n r m).within (skAddr 0 0) hi = true :=
  recordEntries_within r _ 0 mk m hi h (by rwa [Nat.zero_add])

theorem getElem_take_toList (k : Oct Word) (r : Nat) (w : Fin 8) (h : w.val < 2 * r) :
    (k.toList.take (2 * r))[w.val]? = some (k.get w) := by
  rw [List.getElem?_take_of_lt h, Oct.getElem_toList]

theorem getElem_take_toList_none (k : Oct Word) (r j : Nat) (h : 2 * r ≤ j ∨ 8 ≤ j) :
    (k.toList.take (2 * r))[j]? = none := by
  rw [List.getElem?_eq_none_iff, List.length_take]
  have : k.toList.length = 8 := rfl
  omega

/-- One recorded entry: its first 2R words, and no other address. -/
theorem read_entry {m : Memory} (h : m.wf = true) (k : Oct Word) (r c c' : Nat) (w : Fin 8) :
    (m.writeWords (skAddr c 0) (k.toList.take (2 * r))).read (skAddr c' w.val) =
      if c' = c ∧ w.val < 2 * r then k.get w else m.read (skAddr c' w.val) := by
  rw [Memory.read_writeWords _ h]
  have hw := w.isLt
  by_cases hc : c' = c
  · subst hc
    rw [if_pos (by unfold skAddr; omega), show skAddr c' w.val - skAddr c' 0 = w.val by unfold skAddr; omega]
    by_cases hr : w.val < 2 * r
    · rw [if_pos ⟨rfl, hr⟩, getElem_take_toList k r w hr, Option.getD_some]
    · rw [if_neg (by tauto), getElem_take_toList_none k r _ (by omega), Option.getD_none]
  · rw [if_neg (show ¬(c' = c ∧ w.val < 2 * r) by tauto)]
    split
    · rw [getElem_take_toList_none k r _ (by unfold skAddr at *; omega), Option.getD_none]
    · rfl

/-- What recording `count` entries from entry c0 on leaves at every word of the storage, when the working register is
KP^(c0)(mk). -/
theorem read_recordEntries (mk : Oct Word) (r count c0 : Nat) {m : Memory} (h : m.wf = true) (c : Nat) (w : Fin 8) :
    (recordEntries r count c0 (keyAt mk c0) m).read (skAddr c w.val) =
      if c0 ≤ c ∧ c < c0 + count ∧ w.val < 2 * r then (keyAt mk c).get w else m.read (skAddr c w.val) := by
  induction count generalizing c0 m with
  | zero => rw [if_neg (by omega), recordEntries]
  | succ count ih =>
    rw [recordEntries, show keyPerm (keyAt mk c0) (c0 + 1) = keyAt mk (c0 + 1) from rfl,
      ih (c0 + 1) (Memory.wf_writeWords _ m _ h), read_entry h]
    by_cases hc : c = c0
    · subst hc
      rw [if_neg (by omega)]
      by_cases hr : w.val < 2 * r
      · rw [if_pos ⟨rfl, hr⟩, if_pos (by omega)]
      · rw [if_neg (by tauto), if_neg (by tauto)]
    · rw [if_neg (show ¬(c = c0 ∧ w.val < 2 * r) by tauto)]
      by_cases hin : c0 + 1 ≤ c ∧ c < c0 + 1 + count ∧ w.val < 2 * r
      · rw [if_pos hin, if_pos (by omega)]
      · rw [if_neg hin, if_neg (by omega)]

/-- Recording entries writes no address outside the storage's window. -/
theorem read_recordEntries_below (r count c : Nat) (k : Oct Word) {m : Memory} (h : m.wf = true) {a : Nat}
    (ha : a < skAddr c 0) : (recordEntries r count c k m).read a = m.read a := by
  induction count generalizing c k m with
  | zero => rfl
  | succ count ih =>
    rw [recordEntries, ih (c + 1) _ (Memory.wf_writeWords _ m _ h) (by unfold skAddr at *; omega),
      Memory.read_writeWords _ h, if_neg (by omega)]

end Sys2Proof.Machine
end

