-- ==== Sys2Proof/Laws/Exec.lean ====
section
/-! SUPPORT. What the completion of a command can do, said once for all commands. -/

namespace Sys2Proof.Machine

/-- The state a command without an error computes, before its completion clears STATUS. -/
inductive Computed (s : State) : Instr → State → Prop where
  | nop : Computed s .nop s
  | arx (b : Branch) : Computed s (.arx b) (s.onBranch b roundA)
  | arxi (b : Branch) : Computed s (.arxi b) (s.onBranch b roundAInv)
  | lin : Computed s .lin (s.withSt (linL s.st) (linLDef s.stDef))
  | lini : Computed s .lini (s.withSt (linLInv s.st) (linLInvDef s.stDef))
  | kload : Computed s .kload (s.withKr s.mkey s.mkeyDef)
  | kperm : Computed s .kperm (s.withKr (keyPerm s.kr s.roundIndex) (keyPermDef s.krDef))
  | ksched (h : (1 ≤ s.cfgSteps ∧ s.cfgSteps ≤ s.maxSteps.toNat) ∧ 2 ≤ s.cfgRps ∧ s.cfgRps ≤ 4) :
    Computed s .ksched ((s.withTable (buildTable s.mkey s.cfgSteps s.cfgRps s.sk) (cfgWritable s.cfg)
      s.mkeyDef).discardKr)
  | enc (h : s.tblValid = true) : Computed s .enc (s.encrypt 1 s.tblSteps)
  | dec (h : s.tblValid = true) : Computed s .dec (s.decrypt 1 s.tblSteps)
  | encs (h : s.tblValid = true) (hr : 1 ≤ s.fromStep ∧ s.fromStep ≤ s.toStep ∧ s.toStep ≤ s.tblSteps) :
    Computed s .encs (s.encrypt s.fromStep s.toStep)
  | decs (h : s.tblValid = true) (hr : 1 ≤ s.fromStep ∧ s.fromStep ≤ s.toStep ∧ s.toStep ≤ s.tblSteps) :
    Computed s .decs (s.decrypt s.fromStep s.toStep)

/-- The error a command raises. -/
inductive Raised (s : State) : Instr → CommandError → Prop where
  | config (h : ¬((1 ≤ s.cfgSteps ∧ s.cfgSteps ≤ s.maxSteps.toNat) ∧ 2 ≤ s.cfgRps ∧ s.cfgRps ≤ 4)) :
    Raised s .ksched (.configError (configCause s.maxSteps.toNat s.cfgSteps s.cfgRps))
  | noTableEnc (h : s.tblValid = false) : Raised s .enc .noSchedule
  | noTableDec (h : s.tblValid = false) : Raised s .dec .noSchedule
  | noTableEncs (h : s.tblValid = false) : Raised s .encs .noSchedule
  | noTableDecs (h : s.tblValid = false) : Raised s .decs .noSchedule
  | rangeEncs (h : s.tblValid = true)
    (hr : ¬(1 ≤ s.fromStep ∧ s.fromStep ≤ s.toStep ∧ s.toStep ≤ s.tblSteps)) : Raised s .encs .rangeError
  | rangeDecs (h : s.tblValid = true)
    (hr : ¬(1 ≤ s.fromStep ∧ s.fromStep ≤ s.toStep ∧ s.toStep ≤ s.tblSteps)) : Raised s .decs .rangeError
  | illegal (w : Word) : Raised s (.illegal w) .illegalCommand

theorem ksched_outcome (s : State) :
    (∃ u, Computed s .ksched u ∧ ksched s = .ok u) ∨ (∃ e, Raised s .ksched e ∧ ksched s = .error e) := by
  rcases ksched_cases s with ⟨h, hk⟩ | ⟨h, hk⟩
  · exact .inr ⟨_, .config (fun hc => h ((configCause_clear_iff _ _ _).mpr hc)), hk⟩
  · exact .inl ⟨_, .ksched ((configCause_clear_iff _ _ _).mp h), hk⟩

theorem not_rangeOk {n f t : Nat} (h : rangeOk n f t = false) : ¬(1 ≤ f ∧ f ≤ t ∧ t ≤ n) := by
  rw [← rangeOk_iff, h]
  exact Bool.false_ne_true

/-- A command that raises an error uses no data word. -/
theorem Raised.operandsDefined {s : State} {i : Instr} {e : CommandError} (h : Raised s i e) :
    s.operandsDefined i = true := by
  cases h with
  | config h =>
    have : configCause s.maxSteps.toNat s.cfgSteps s.cfgRps ≠ Cause.clear :=
      fun hc => h ((configCause_clear_iff _ _ _).mp hc)
    simp [State.operandsDefined, State.scheduleDefined, this]
  | illegal w => rfl
  | noTableEnc h | noTableDec h => simp [State.operandsDefined, State.fullDefined, h]
  | noTableEncs h | noTableDecs h => simp [State.operandsDefined, State.partialDefined, h]
  | rangeEncs h hr | rangeDecs h hr =>
    simp [State.operandsDefined, State.partialDefined, Bool.eq_false_iff.mpr (mt (rangeOk_iff _ _ _).mp hr)]

/-- Every command completes in what it computed, or in the error it raised; the run is marked when it used a data word
that holds no defined value. -/
theorem exec_cases (i : Instr) (s : State) :
    (∃ u, Computed s i u ∧ exec i s = .next ((u.complete .none Cause.clear).noteUse (s.operandsDefined i))) ∨
    (∃ e, Raised s i e ∧ exec i s = .next ((s.takeError e).noteUse (s.operandsDefined i))) := by
  cases i with
  | nop => exact .inl ⟨_, .nop, rfl⟩
  | arx b => exact .inl ⟨_, .arx b, rfl⟩
  | arxi b => exact .inl ⟨_, .arxi b, rfl⟩
  | lin => exact .inl ⟨_, .lin, rfl⟩
  | lini => exact .inl ⟨_, .lini, rfl⟩
  | kload => exact .inl ⟨_, .kload, rfl⟩
  | kperm => exact .inl ⟨_, .kperm, rfl⟩
  | illegal w => exact .inr ⟨_, .illegal w, rfl⟩
  | ksched =>
    rcases ksched_outcome s with ⟨u, hu, hk⟩ | ⟨e, he, hk⟩
    · exact .inl ⟨u, hu, perform_ok hk⟩
    · exact .inr ⟨e, he, perform_error hk⟩
  | enc =>
    rcases fullRange_cases State.encrypt s with ⟨h, hk⟩ | ⟨h, hk⟩
    · exact .inr ⟨_, .noTableEnc h, perform_error hk⟩
    · exact .inl ⟨_, .enc h, perform_ok hk⟩
  | dec =>
    rcases fullRange_cases State.decrypt s with ⟨h, hk⟩ | ⟨h, hk⟩
    · exact .inr ⟨_, .noTableDec h, perform_error hk⟩
    · exact .inl ⟨_, .dec h, perform_ok hk⟩
  | encs =>
    rcases partialRange_cases State.encrypt s with ⟨h, hk⟩ | ⟨h, hr, hk⟩ | ⟨h, hr, hk⟩
    · exact .inr ⟨_, .noTableEncs h, perform_error hk⟩
    · exact .inr ⟨_, .rangeEncs h (not_rangeOk hr), perform_error hk⟩
    · exact .inl ⟨_, .encs h ((rangeOk_iff _ _ _).mp hr), perform_ok hk⟩
  | decs =>
    rcases partialRange_cases State.decrypt s with ⟨h, hk⟩ | ⟨h, hr, hk⟩ | ⟨h, hr, hk⟩
    · exact .inr ⟨_, .noTableDecs h, perform_error hk⟩
    · exact .inr ⟨_, .rangeDecs h (not_rangeOk hr), perform_error hk⟩
    · exact .inl ⟨_, .decs h ((rangeOk_iff _ _ _).mp hr), perform_ok hk⟩

/-- `exec_cases` for a given next state. -/
theorem exec_next {i : Instr} {s t : State} (h : exec i s = .next t) :
    (∃ u, Computed s i u ∧ t = (u.complete .none Cause.clear).noteUse (s.operandsDefined i)) ∨
    (∃ e, Raised s i e ∧ t = s.takeError e) := by
  rcases exec_cases i s with ⟨u, hu, he⟩ | ⟨e, hr, he⟩
  · exact .inl ⟨u, hu, by rw [h, Host.Outcome.next.injEq] at he; exact he⟩
  · exact .inr ⟨e, hr, by rw [h, Host.Outcome.next.injEq, hr.operandsDefined, State.noteUse_true] at he; exact he⟩

end Sys2Proof.Machine
end

