-- ==== Sys2Proof/Laws/PerInstr.lean ====
section
/-! SUPPORT. Per-instruction statements: the encoding of an instruction of the opcode map leaves Z, bits [15:5], zero,
and the reserved row's encoding is its own word (30_encoding.md R80, R81, R86). -/

namespace Sys2Proof.Laws.EncodedFields

/-- A command of the opcode map has Z = 0; a reserved word stands for itself. -/
def Statement (i : Instr) : Prop :=
  match i with
  | .illegal w => encode i = w
  | _ => zField (encode i) = 0

theorem nop : Statement .nop := by simp [Statement, encode, zField]
theorem arx (b : Branch) : Statement (.arx b) := by cases b <;> simp [Statement, encode, zField, Branch.bit]
theorem arxi (b : Branch) : Statement (.arxi b) := by cases b <;> simp [Statement, encode, zField, Branch.bit]
theorem lin : Statement .lin := by simp [Statement, encode, zField]
theorem lini : Statement .lini := by simp [Statement, encode, zField]
theorem kload : Statement .kload := by simp [Statement, encode, zField]
theorem kperm : Statement .kperm := by simp [Statement, encode, zField]
theorem ksched : Statement .ksched := by simp [Statement, encode, zField]
theorem enc : Statement .enc := by simp [Statement, encode, zField]
theorem dec : Statement .dec := by simp [Statement, encode, zField]
theorem encs : Statement .encs := by simp [Statement, encode, zField]
theorem decs : Statement .decs := by simp [Statement, encode, zField]
theorem illegal (w : Word) : Statement (.illegal w) := rfl

end Sys2Proof.Laws.EncodedFields
end

