-- ==== Sys2Proof/Laws/Step.lean ====
section
/-! SUPPORT. What a host read, a host write and a step can do, said once. -/

namespace Sys2Proof.Machine

/-- A read gives the host one more word, and uses a free value where the value is unspecified. -/
theorem State.hostRead_cases (s : State) (a : Addr) :
    (∃ v, s.peek a = some v ∧ s.hostRead a = { s with replies := s.replies ++ [v] }) ∨
    (s.peek a = none ∧
      s.hostRead a = { s with
        replies := s.replies ++ [Config.freeWord s.draws], draws := s.draws + 1, faulted := s.faulted || !s.busy }) := by
  unfold State.hostRead
  cases s.peek a <;> simp [State.noteUse]

theorem State.hostWrite_busy {s : State} (h : s.busy = true) (a : Addr) (v : Word) : s.hostWrite a v = s := by
  simp [State.hostWrite, h]

theorem State.hostWrite_idle {s : State} (h : s.busy = false) (a : Addr) (v : Word) :
    s.hostWrite a v = s.store (locate a) v := by
  simp [State.hostWrite, h]

/-- A store writes nothing, issues a command, or writes one read/write register. -/
theorem State.store_cases (s : State) (r : Reg) (v : Word) :
    s.store r v = s ∨ (r = .cmd ∧ s.store r v = s.issue v) ∨ (r = .cfg ∧ s.store r v = { s with cfg := cfgWritable v }) ∨
    (r = .range ∧ s.store r v = { s with range := v }) ∨ (r = .ridx ∧ s.store r v = { s with ridx := v }) ∨
    (∃ i, r = .mkey i ∧ s.store r v = { s with mkey := s.mkey.set i v, mkeyDef := s.mkeyDef.set i true }) ∨
    (∃ i, r = .st i ∧ s.store r v = { s with st := s.st.set i v, stDef := s.stDef.set i true }) := by
  cases r <;> simp [State.store]

/-- The sequencer's turn completes the command in flight, or changes nothing. -/
theorem sequencerTurn_cases {s t : State} (h : sequencerTurn s = .next t) :
    (s.busy = true ∧ exec s.command s = .next t) ∨ (s.busy = false ∧ t = s) := by
  unfold sequencerTurn at h
  split at h
  · exact .inl ⟨‹_›, h⟩
  · rename_i hb
    refine .inr ⟨Bool.eq_false_iff.mpr hb, ?_⟩
    simpa [eq_comm] using h

/-- A step is the sequencer's turn, a host access or the reset input, on the state with the oldest event taken off. -/
theorem step_cases {s t : State} (h : step s = .next t) :
    (s.agenda = [] ∧ sequencerTurn s = .next t) ∨
    (∃ rest, s.agenda = .sequencer :: rest ∧ sequencerTurn (s.withAgenda rest) = .next t) ∨
    (∃ x rest, s.agenda = .host x :: rest ∧ t = (s.withAgenda rest).access x) ∨
    (∃ rest, s.agenda = .reset :: rest ∧ t = (s.withAgenda rest).applyReset) := by
  unfold step at h
  split at h
  · exact .inl ⟨‹_›, h⟩
  · exact .inr (.inl ⟨_, ‹_›, h⟩)
  · refine .inr (.inr (.inl ⟨_, _, ‹_›, ?_⟩))
    simpa [eq_comm] using h
  · refine .inr (.inr (.inr ⟨_, ‹_›, ?_⟩))
    simpa [eq_comm] using h

end Sys2Proof.Machine
end

