-- ==== Sys2Proof/Tests/Slice0.lean ====
section
/-! SUPPORT. Tests of the model against the worked examples of spec/ (95_test_vectors.md unless another file is named),
the WellFormed smoke, and a witness for the premises of every statement that has premises. -/

namespace Sys2Proof.Tests

open Sys2Proof Sys2Proof.Machine

/-! ## Helpers -/

/-- The state of a next outcome. -/
def after : Host.Outcome State Fault Refusal → Option State
  | .next t => some t
  | .fault _ => none
  | .refused _ => none

/-- Reset with MAX_STEPS = 8, as the vectors assume. -/
def base : State := { State.reset with maxSteps := 8 }

/-- ST written by the host. -/
def withBlock (s : State) (a b c d : Word) : State := { s with st := ⟨a, b, c, d⟩, stDef := Quad.all4 true }

/-- MK written by the host. -/
def withKey (s : State) (k : Oct Word) : State := { s with mkey := k, mkeyDef := Oct.all8 true }

/-- The key of section 1.1. -/
def sourceKey : Oct Word := ⟨0x718d, 0x1ebe, 0x75cb, 0x4a38, 0x1fe5, 0x46f3, 0x36b8, 0x610d⟩

/-- The key of section 1.3. -/
def publishedKey : Oct Word := ⟨0x0011, 0x2233, 0x4455, 0x6677, 0x8899, 0xaabb, 0xccdd, 0xeeff⟩

/-- The key written, CFG = 0x0308, the plaintext of section 1.1 in ST. -/
def keyed : State := withBlock (withKey base sourceKey) 0x3bd8 0x0a08 0x7ff3 0x482d

/-- The table of section 2.4 built from it (N = 8, R = 3), with ST as given and RANGE = v. -/
def tabled (a b c d v : Word) : State :=
  { withBlock keyed a b c d with
    sk := buildTable sourceKey 8 3 [], tblCfg := 0x0308, tblValid := true, skDef := Oct.all8 true, range := v }

/-- The table of the published key for N = 1, R = 2 (section 2.4). -/
def smallTabled (a b c d v : Word) : State :=
  { withBlock (withKey base publishedKey) a b c d with
    sk := buildTable publishedKey 1 2 [], tblCfg := 0x0201, tblValid := true, skDef := Oct.all8 true, range := v }

/-! ## WellFormed (30_encoding.md R86) -/

theorem test_wellFormed_refuses_arx_word : (Instr.illegal 0x0001).wellFormed = false := by decide
theorem test_wellFormed_refuses_arx1_word : (Instr.illegal 0x0011).wellFormed = false := by decide
theorem test_wellFormed_refuses_last_word : (Instr.illegal 0x000B).wellFormed = false := by decide
theorem test_wellFormed_reserved_opcode : (Instr.illegal 0x000C).wellFormed = true := by decide
theorem test_wellFormed_nonzero_z : (Instr.illegal 0x0020).wellFormed = true := by decide
theorem test_wellFormed_stray_b : (Instr.illegal 0x0013).wellFormed = true := by decide

/-! ## Decoding: words written out from R80 and R81, Z | B | OP -/

theorem test_decode_nop : decode 0b00000000000_0_0000 = .nop := by decide
theorem test_decode_arx0 : decode 0b00000000000_0_0001 = .arx .b0 := by decide
theorem test_decode_arx1 : decode 0b00000000000_1_0001 = .arx .b1 := by decide
theorem test_decode_arxi0 : decode 0b00000000000_0_0010 = .arxi .b0 := by decide
theorem test_decode_arxi1 : decode 0b00000000000_1_0010 = .arxi .b1 := by decide
theorem test_decode_lin : decode 0b00000000000_0_0011 = .lin := by decide
theorem test_decode_lini : decode 0b00000000000_0_0100 = .lini := by decide
theorem test_decode_kload : decode 0b00000000000_0_0101 = .kload := by decide
theorem test_decode_kperm : decode 0b00000000000_0_0110 = .kperm := by decide
theorem test_decode_ksched : decode 0b00000000000_0_0111 = .ksched := by decide
theorem test_decode_enc : decode 0b00000000000_0_1000 = .enc := by decide
theorem test_decode_dec : decode 0b00000000000_0_1001 = .dec := by decide
theorem test_decode_encs : decode 0b00000000000_0_1010 = .encs := by decide
theorem test_decode_decs : decode 0b00000000000_0_1011 = .decs := by decide
theorem test_decode_reserved_opcode : decode 0b00000000000_0_1100 = .illegal 0x000C := by decide
theorem test_decode_reserved_opcode_b : decode 0b00000000000_1_1100 = .illegal 0x001C := by decide
theorem test_decode_lin_with_b : decode 0b00000000000_1_0011 = .illegal 0x0013 := by decide
theorem test_decode_z_low_bit : decode 0b00000000001_0_0000 = .illegal 0x0020 := by decide
theorem test_decode_z_high_bit : decode 0b10000000000_0_0001 = .illegal 0x8001 := by decide
theorem test_decodeTableWord_word : decodeTableWord 16 0x0012 = some (.arxi .b1) := by decide
theorem test_decodeTableWord_too_long : decodeTableWord 32 0x0012 = none := by decide

/-! ## Units and commands -/

/-- 2.1: the sum wraps to exactly 0. -/
theorem test_roundA_wraps : roundA 0x0080 0xffff = (0x0000, 0xffff) := by decide
/-- 2.1: the subtraction wraps. -/
theorem test_roundAInv_wraps : roundAInv 0x0001 0x0000 = (0x00e0, 0x4000) := by decide
/-- R103: A is not an involution. -/
theorem test_roundA_twice : roundA (roundA 0x0001 0x0000).1 (roundA 0x0001 0x0000).2 = (0x0204, 0x0a04) := by decide

/-- 2.1's command vectors. -/
theorem test_arx1 : (after (execArx .b1 (withBlock base 0x1234 0x5678 0x9abc 0xdef0))).map (·.st) =
    some ⟨0x1234, 0x5678, 0x5825, 0x23e6⟩ := by decide
theorem test_arxi0 : (after (execArxi .b0 (withBlock base 0xbe9c 0xe77d 0x9abc 0xdef0))).map (·.st) =
    some ⟨0x1234, 0x5678, 0x9abc, 0xdef0⟩ := by decide

/-- 2.2's command vectors. -/
theorem test_lin : (after (execLin (withBlock base 0xbe9c 0xe77d 0x5825 0x23e6))).map (·.st) =
    some ⟨0x07e0, 0x25c2, 0xbe9c, 0xe77d⟩ := by decide
theorem test_lini : (after (execLini (withBlock base 0x0101 0x0100 0x0001 0x0000))).map (·.st) =
    some ⟨0x0001, 0x0000, 0x0000, 0x0000⟩ := by decide

/-- 2.3: KLOAD gives KR = MK; a word never written stays undefined (42_key_permutation.md R143). -/
theorem test_kload : (after (execKload keyed)).map (·.kr) = some sourceKey := by decide
theorem test_kload_undefined : (after (execKload { keyed with mkeyDef := (Oct.all8 true).set 5 false })).map
    (fun t => (t.krDef.get 4, t.krDef.get 5)) = some (true, false) := by decide

/-- 2.3: KP of the source key with c = 1, and k7 + c wrapping to 0. -/
theorem test_kperm : (after (execKperm { keyed with kr := sourceKey, ridx := 1 })).map (·.kr) =
    some ⟨0x36b8, 0x610e, 0x39a1, 0x4359, 0xaf6c, 0x8d91, 0x1fe5, 0x46f3⟩ := by decide
theorem test_kperm_wraps : (after (execKperm { base with kr := ⟨0, 0, 0, 0, 0, 0, 0, 0xffff⟩, ridx := 1 })).map (·.kr) =
    some (Oct.all8 0) := by decide

/-- 2.4: the last entry of the source key's table, TBL_CFG and STATUS. -/
theorem test_ksched_table : (after (execKsched keyed)).map
    (fun t => ((List.range 6).map (t.skWord 16), t.tblCfg, t.status)) =
    some ([0xee74, 0xd081, 0xbab1, 0xc095, 0x39d2, 0xf861], 0x0308, 0x0002) := by decide +kernel
/-- 2.4's STATUS vectors: ConfigError with two causes. -/
theorem test_ksched_causes : (after (execKsched { keyed with cfg := 0x07ff })).map (·.status) = some 0x0910 := by decide

/-- 1.1: the pinned ciphertext. -/
theorem test_enc : (after (execEnc (tabled 0x3bd8 0x0a08 0x7ff3 0x482d 0x0900))).map (·.st) =
    some ⟨0x9f64, 0x4b3e, 0x81b0, 0xa0fb⟩ := by decide +kernel
/-- 2.5: the published key with N = 1, R = 2. -/
theorem test_enc_one_step : (after (execEnc (smallTabled 0x0123 0x4567 0x89ab 0xcdef 0))).map (·.st) =
    some ⟨0xa306, 0x600b, 0x9d17, 0xe0d4⟩ := by decide +kernel
/-- 2.5: decrypting a block that was never encrypted. -/
theorem test_dec : (after (execDec (tabled 0x3bd8 0x0a08 0x7ff3 0x482d 0))).map (·.st) =
    some ⟨0x4fb5, 0x662a, 0x4072, 0x1abe⟩ := by decide +kernel
/-- 2.6: no table. -/
theorem test_dec_no_table : (after (execDec keyed)).map (fun t => (t.status, t.st)) = some (0x0030, keyed.st) := by decide
/-- 2.5: the last step alone, with whitening. -/
theorem test_encs_last : (after (execEncs (tabled 0x3bd8 0x0a08 0x7ff3 0x482d 0x0808))).map (·.st) =
    some ⟨0xf19b, 0xacbf, 0xc052, 0xa9ea⟩ := by decide +kernel
/-- 2.6: NoSchedule outranks RangeError. -/
theorem test_encs_priority : (after (execEncs { keyed with range := 0x0900 })).map (·.status) = some 0x0030 := by decide
/-- 2.5: a middle range, no whitening. -/
theorem test_decs_middle : (after (execDecs (tabled 0x9f64 0x4b3e 0x81b0 0xa0fb 0x0503))).map (·.st) =
    some ⟨0x8c9e, 0x76b6, 0x406f, 0xbbcb⟩ := by decide +kernel
/-- 2.6: f = 5 > t = 3, the table kept. -/
theorem test_decs_range : (after (execDecs (tabled 0x3bd8 0x0a08 0x7ff3 0x482d 0x0305))).map (·.status) = some 0x0022 := by
  decide +kernel

/-- 45_control.md R220's example. -/
theorem test_nop : (after (execNop
    { base with tblValid := true, err := .configError, cause := ⟨true, false, false, false⟩ })).map (·.status) =
    some 0x0002 := by decide
/-- 2.6: a reserved word, the table kept. -/
theorem test_illegal : (after (execIllegal 0x0013 { keyed with tblValid := true })).map (·.status) = some 0x0042 := by
  decide

/-! ## Words that hold no defined value (10_state.md R38) -/

/-- R161: entry 0 is the master key, so MK[5] unwritten leaves SK[0][4] defined and SK[0][5] not; 93 row 2 marks the
run. -/
theorem test_ksched_unwritten : (after (execKsched { keyed with mkeyDef := (Oct.all8 true).set 5 false })).map
    (fun t => (t.peek 0x104, t.peek 0x105, t.faulted)) = some (some 0x1fe5, none, true) := by decide +kernel
/-- R181: step 1 with ST[3] unwritten: L copies branch 0 to ST[2..3], which stay defined; the rest takes branch 1. -/
theorem test_encs_unwritten : (after (execEncs
    { tabled 0 0 0 0 0x0101 with stDef := ⟨true, true, true, false⟩ })).map (fun t => (t.stDef, t.faulted)) =
    some (⟨false, false, true, true⟩, true) := by decide +kernel
/-- R183: undoing step 1 with SK[0][1] undefined: the last XOR brings it into ST[1] alone. -/
theorem test_decStepDef : decStepDef (fun e w => !(e == 0 && w == 1)) 3 1 (Quad.all4 true) = ⟨true, false, true, true⟩ := by
  decide
/-- R182, R186: the whitening of the last step takes SK[16][0..3] word by word. -/
theorem test_encRangeDef_whitens : encRangeDef (fun e w => !(e == 16 && w == 2)) 8 3 8 8 (Quad.all4 true) =
    ⟨true, true, false, true⟩ := by decide
/-- 93 row 1: a host read of an unwritten word marks the run, and the run goes on; one of a written word does not. -/
theorem test_read_marks : (base.hostRead 0x008).faulted = true ∧ (keyed.hostRead 0x008).faulted = false := by decide
/-- 93 row 4: a read while BUSY = 1 is any value, and no fault. -/
theorem test_busy_read_is_no_fault : ((keyed.issue 0x0008).hostRead 0x018).faulted = false := by decide
/-- 60_exceptions.md R237: a command that raises an error uses no data word. -/
theorem test_error_uses_nothing : (after (execEnc base)).map (·.faulted) = some false := by decide

/-- 93 row 3, R38's last paragraph: KR after KSCHED holds some value, though MK was not all written. -/
theorem test_ksched_kr_defined : (after (execKsched { keyed with mkeyDef := Oct.all8 false })).map (·.krDef) =
    some (Oct.all8 true) := by decide +kernel

/-! ## The host interface (2.7) -/

/-- R30, R55: TBL_CFG reads its own value, not CFG's. -/
theorem test_read_tblCfg : (smallTabled 0 0 0 0 0).peek 0x005 = some 0x0201 ∧
    (smallTabled 0 0 0 0 0).peek 0x002 = some 0x0308 := by decide

theorem test_read_cfg_after_reset : base.peek 0x002 = some 0x0308 := by decide
theorem test_read_param : base.peek 0x006 = some 0x0108 := by decide
theorem test_read_cmd : base.peek 0x000 = some 0x0000 := by decide
theorem test_write_cfg_reserved_bits : (base.hostWrite 0x002 0xffff).peek 0x002 = some 0x07ff := by decide
theorem test_write_kr_ignored : base.hostWrite 0x018 0x1234 = base := by decide
theorem test_read_unwritten : base.peek 0x008 = none := by decide
theorem test_write_while_busy : (keyed.issue 0x0008).hostWrite 0x010 0 = keyed.issue 0x0008 := by decide
theorem test_status_while_busy : (keyed.issue 0x0008).peek 0x001 = some 0x0001 := by decide
/-- 2.4's window reads: word 6 lies outside the logical entry, entry 17 outside the table. -/
theorem test_window_logical : (tabled 0 0 0 0 0).peek 0x185 = some 0xf861 := by decide +kernel
theorem test_window_outside : (tabled 0 0 0 0 0).peek 0x186 = some 0 ∧ (tabled 0 0 0 0 0).peek 0x188 = some 0 := by
  decide +kernel
/-- R56 without a table, MAX_STEPS = 8: unspecified up to entry 16, 0 from entry 17 on. -/
theorem test_window_no_table : base.peek 0x187 = none ∧ base.peek 0x188 = some 0 := by decide
/-- R53: word 7 of entry 510 is at 0x10F7, and the next address is reserved. -/
theorem test_window_last : locate 0x10F7 = .sk 510 7 ∧ locate 0x10F8 = .reserved := by decide
/-- R87: the scripts' addresses are those of the map. -/
theorem test_addresses : locate (Reg.mkey 7).address = .mkey 7 ∧ locate (Reg.st 3).address = .st 3 ∧
    locate (Reg.kr 0).address = .kr 0 ∧ locate (Reg.sk 16 5).address = .sk 16 5 := by decide
/-- R88: `ENCS 1, 4` is RANGE = 0x0401 and then the command; its wait here polls once in vain. -/
theorem test_script_encs : scriptEncs 1 1 4 =
    [.host (.write 0x003 0x0401), .host (.write 0x000 0x000A), .host (.read 0x001), .sequencer, .host (.read 0x001)] := by
  decide

/-! ## A step -/

/-- A reset abandons the command in flight (70_reset_and_hazards.md R270). -/
theorem test_step_reset : (after (step { keyed.issue 0x0001 with agenda := [.reset] })).map
    (fun t => (t.busy, t.status, t.agenda)) = some (false, 0, []) := by decide
/-- An idle block keeps its state (60_exceptions.md R245). -/
theorem test_step_idle : (after (step keyed)) = some keyed := by decide
theorem test_fetch_word_runs : (after (step (State.reset.withFetchWord 16 0x0003))).map (·.busy) = some false := by decide

/-! ## Witnesses of the premises -/

theorem witness_DecodeOfEncode : (Instr.illegal 0xffff).wellFormed = true ∧ (Instr.arx .b1).wellFormed = true := by decide
theorem witness_RotationsAreCircular : 1 ≤ 1 ∧ 1 ≤ 15 ∧ 1 ≤ 15 ∧ 15 ≤ 15 := by decide
theorem witness_BranchOrderDoesNotMatter : ∀ w : Nat, (fun _ w => BitVec.ofNat 16 w : Nat → Nat → Word) (subkeyEntry 1 .b0) w =
    (fun e w => if e = 9 then 0 else BitVec.ofNat 16 w) (subkeyEntry 1 .b0) w := fun _ => rfl
theorem witness_RangeComposition : 1 ≤ 1 ∧ 1 ≤ 1 ∧ 1 < 2 ∧ 2 ≤ 2 := by decide
theorem witness_SchedulesAgree : Memory.wf [] = true ∧ Memory.wf [(0x100, 1)] = true ∧ 2 ≤ 2 * 1 ∧
    (3 : Fin 8).val < 2 * min 2 3 := by decide
theorem witness_NopClearsTheErrorFields : (0x0010 : Word) ≠ 0 ∧ opField 0x0010 = 0 := by decide
theorem witness_ArxArxiWords : opField 0x0021 = 0x1 ∧ zField 0x0021 ≠ 0 ∧ opField 0x8002 = 0x2 ∧ zField 0x8002 ≠ 0 := by
  decide
theorem witness_LinLiniWords : opField 0x0013 = 0x3 ∧ (0x0013 : Word) ≠ 0x0003 ∧ opField 0x0014 = 0x4 ∧
    (0x0014 : Word) ≠ 0x0004 := by decide
theorem witness_InverseCommands : (∃ b, Instr.arx .b1 = .arx b ∧ Instr.arxi .b1 = .arxi b) ∧
    (∃ b, Instr.arxi .b0 = .arxi b ∧ Instr.arx .b0 = .arx b) ∧ (Instr.lin = .lin ∧ Instr.lini = .lini) :=
  ⟨⟨.b1, rfl, rfl⟩, ⟨.b0, rfl, rfl⟩, rfl, rfl⟩
theorem witness_KschedBuildsTheTable : keyed.sk.wf = true ∧ 1 ≤ keyed.cfgSteps ∧ keyed.cfgSteps ≤ keyed.maxSteps.toNat ∧
    2 ≤ keyed.cfgRps ∧ keyed.cfgRps ≤ 4 := by decide
/-- The least configuration accepted. -/
theorem witness_KschedBuildsTheTable_least : { keyed with cfg := 0x0201 }.sk.wf = true ∧
    1 ≤ { keyed with cfg := 0x0201 }.cfgSteps ∧ { keyed with cfg := 0x0201 }.cfgSteps ≤ keyed.maxSteps.toNat ∧
    2 ≤ { keyed with cfg := 0x0201 }.cfgRps ∧ { keyed with cfg := 0x0201 }.cfgRps ≤ 4 := by decide
/-- One step too many, and one round too many. -/
theorem witness_KschedRejectsTheConfiguration :
    ¬(1 ≤ { keyed with cfg := 0x0309 }.cfgSteps ∧ { keyed with cfg := 0x0309 }.cfgSteps ≤ keyed.maxSteps.toNat ∧
      2 ≤ { keyed with cfg := 0x0309 }.cfgRps ∧ { keyed with cfg := 0x0309 }.cfgRps ≤ 4) ∧
    ¬(1 ≤ { keyed with cfg := 0x0508 }.cfgSteps ∧ { keyed with cfg := 0x0508 }.cfgSteps ≤ keyed.maxSteps.toNat ∧
      2 ≤ { keyed with cfg := 0x0508 }.cfgRps ∧ { keyed with cfg := 0x0508 }.cfgRps ≤ 4) := by decide
theorem witness_full_commands : (tabled 0 0 0 0 0).tblValid = true ∧ keyed.tblValid = false := by decide
/-- Both ends of the accepted ranges, for ENCS and DECS, and for DecryptionRestoresTheBlock. -/
theorem witness_partial_commands : (tabled 0 0 0 0 0x0801).tblValid = true ∧ 1 ≤ (tabled 0 0 0 0 0x0801).fromStep ∧
    (tabled 0 0 0 0 0x0801).fromStep ≤ (tabled 0 0 0 0 0x0801).toStep ∧
    (tabled 0 0 0 0 0x0801).toStep ≤ (tabled 0 0 0 0 0x0801).tblSteps := by decide
theorem witness_partial_commands_one_step : (tabled 0 0 0 0 0x0808).tblValid = true ∧
    1 ≤ (tabled 0 0 0 0 0x0808).fromStep ∧ (tabled 0 0 0 0 0x0808).fromStep ≤ (tabled 0 0 0 0 0x0808).toStep ∧
    (tabled 0 0 0 0 0x0808).toStep ≤ (tabled 0 0 0 0 0x0808).tblSteps := by decide
theorem witness_partial_commands_rangeError : (tabled 0 0 0 0 0x0901).tblValid = true ∧
    ¬(1 ≤ (tabled 0 0 0 0 0x0901).fromStep ∧ (tabled 0 0 0 0 0x0901).fromStep ≤ (tabled 0 0 0 0 0x0901).toStep ∧
      (tabled 0 0 0 0 0x0901).toStep ≤ (tabled 0 0 0 0 0x0901).tblSteps) := by decide
theorem witness_WholeRangeIsTheFullCommand : 1 ≤ (tabled 0 0 0 0 0x0801).tblSteps ∧
    (tabled 0 0 0 0 0x0801).range.toNat = 256 * (tabled 0 0 0 0 0x0801).tblSteps + 1 := by decide
theorem witness_IllegalWord : (0x000C : Word) ∉ ([0x0000, 0x0001, 0x0011, 0x0002, 0x0012, 0x0003, 0x0004, 0x0005, 0x0006,
    0x0007, 0x0008, 0x0009, 0x000A, 0x000B] : List Word) := by decide
theorem witness_ErrorLeavesAllButStatus : ∃ t, exec .enc keyed = .next t ∧ t.err ≠ .none ∧ t.err ≠ .configError :=
  ⟨_, rfl, by decide, by decide⟩
theorem witness_exec_next : ∃ t, exec .lin keyed = .next t := ⟨_, rfl⟩
theorem witness_CommandsWriteOnlyTheirTargets : ∃ t, exec .kload keyed = .next t ∧
    (Instr.lin ≠ .kload ∧ Instr.lin ≠ .kperm ∧ Instr.lin ≠ .ksched) := ⟨_, rfl, by decide⟩
theorem witness_DefinedOperands : keyed.operandsDefined .lin = true ∧ keyed.operandsDefined .ksched = true ∧
    (tabled 0 0 0 0 0x0801).operandsDefined .encs = true ∧ base.operandsDefined .lin = false := by decide
/-- The premises of each clause of DefinednessIsPerWord: a command that answers, KSCHED without an error, and a step that
does not whiten. -/
theorem witness_DefinednessIsPerWord_units : (∃ t, exec (.arx .b1) base = .next t) ∧ (∃ t, exec (.arxi .b0) base = .next t) ∧
    (∃ t, exec .lin base = .next t) ∧ (∃ t, exec .lini base = .next t) ∧ (∃ t, exec .kperm base = .next t) :=
  ⟨⟨_, rfl⟩, ⟨_, rfl⟩, ⟨_, rfl⟩, ⟨_, rfl⟩, ⟨_, rfl⟩⟩
theorem witness_DefinednessIsPerWord_ksched :
    ∃ t, exec .ksched { keyed with mkeyDef := (Oct.all8 true).set 7 false } = .next t ∧ t.err = .none :=
  ⟨_, rfl, by decide +kernel⟩
theorem witness_DefinednessIsPerWord_steps : (tabled 0 0 0 0 0x0707).tblValid = true ∧ (tabled 0 0 0 0 0x0707).fromStep = 7 ∧
    (tabled 0 0 0 0 0x0707).toStep = 7 ∧ 1 ≤ 7 ∧ 7 < (tabled 0 0 0 0 0x0707).tblSteps ∧ 1 ≤ (tabled 0 0 0 0 0x0707).tblRps ∧
    (∃ t, exec .encs (tabled 0 0 0 0 0x0707) = .next t) ∧ (∃ t, exec .decs (tabled 0 0 0 0 0x0707) = .next t) :=
  ⟨by decide, by decide, by decide, by decide, by decide, by decide, ⟨_, rfl⟩, ⟨_, rfl⟩⟩
theorem witness_DefinednessIsPerWord_full : (tabled 0 0 0 0 0).tblValid = true ∧
    (∃ t, exec .enc (tabled 0 0 0 0 0) = .next t) ∧ (∃ t, exec .dec (tabled 0 0 0 0 0) = .next t) :=
  ⟨by decide, ⟨_, rfl⟩, ⟨_, rfl⟩⟩
/-- A range of more than one step that whitens. -/
theorem witness_DefinednessIsPerWord_ranges : (tabled 0 0 0 0 0x0805).tblValid = true ∧
    1 ≤ (tabled 0 0 0 0 0x0805).fromStep ∧ (tabled 0 0 0 0 0x0805).fromStep ≤ (tabled 0 0 0 0 0x0805).toStep ∧
    (tabled 0 0 0 0 0x0805).toStep ≤ (tabled 0 0 0 0 0x0805).tblSteps ∧
    (∃ t, exec .encs (tabled 0 0 0 0 0x0805) = .next t) ∧ (∃ t, exec .decs (tabled 0 0 0 0 0x0805) = .next t) :=
  ⟨by decide, by decide, by decide, by decide, ⟨_, rfl⟩, ⟨_, rfl⟩⟩
/-- A command that changes no definedness: NOP, and one that ends in an error. -/
theorem witness_DefinednessIsPerWord_rest : (∃ t, exec .kload base = .next t) ∧ (∃ t, exec .nop base = .next t) ∧
    (∃ t, exec .enc base = .next t ∧ t.err ≠ .none) :=
  ⟨⟨_, rfl⟩, ⟨_, rfl⟩, _, rfl, by decide⟩
/-- A command that uses undefined words, a read of one, a host write and a reset each answer. -/
theorem witness_UndefinedUseMarksTheRun : (∃ t, exec .lin base = .next t) ∧ base.operandsDefined .lin = false ∧
    (∃ t, step (base.issue 0x0003) = .next t) ∧ (∃ t, step { base with agenda := [.host (.read 0x010)] } = .next t) ∧
    base.peek 0x010 = none ∧ (∃ t, step { base with agenda := [.host (.write 0x010 1)] } = .next t) ∧
    (∃ t, step { base with agenda := [.reset] } = .next t) :=
  ⟨⟨_, rfl⟩, by decide, ⟨_, rfl⟩, ⟨_, rfl⟩, by decide, ⟨_, rfl⟩, ⟨_, rfl⟩⟩
/-- A host write first in the agenda, of an idle block and of one with a command in flight. -/
theorem witness_HostWriteThenRead_step :
    { keyed with agenda := [.host (.write 0x010 7)] }.agenda = .host (.write 0x010 7) :: [] ∧
    { keyed.issue 0x0008 with agenda := [.host (.write 0x010 7)] }.agenda = .host (.write 0x010 7) :: [] := by decide
theorem witness_HostWriteThenRead : keyed.busy = false ∧ (0x002 : Addr) ≠ 0x000 ∧ (0x013 : Addr) ≠ 0x000 ∧
    (0x014 : Addr) ≠ 0x000 ∧ (0x003 : Addr) ≠ 0x002 := by decide
theorem witness_ReservedAndReadOnlyAccesses : (0x001 : Addr).toNat = 0x001 ∧ 0x005 ≤ (0x005 : Addr).toNat ∧
    0x014 ≤ (0x014 : Addr).toNat ∧ 0x014 ≤ (0x1FFF : Addr).toNat ∧ (0x017 : Addr).toNat ≤ 0x017 ∧
    (0x020 ≤ (0x020 : Addr).toNat ∧ (0x0FF : Addr).toNat ≤ 0x0FF) ∧ (0x000 : Addr).toNat = 0x000 ∧ (0x007 : Addr).toNat = 0x007 ∧ 0x10F8 ≤ (0x10F8 : Addr).toNat := by decide
theorem witness_HostReadOnlyReplies : { keyed with agenda := [.host (.read 0x010)] }.agenda = .host (.read 0x010) :: [] ∧
    keyed.peek 0x010 = some 0x3bd8 ∧ keyed.peek 0x018 = none := by decide
theorem witness_WindowReads : 510 ≤ 510 ∧ 7 ≤ 7 ∧ keyed.busy = false ∧ (tabled 0 0 0 0 0).busy = false := by decide
theorem witness_DataWordReads : keyed.busy = false := by decide
theorem witness_ParamIsConstant : ∃ t, step keyed = .next t := ⟨_, rfl⟩
theorem witness_CommandWriteIssues : { keyed with agenda := [.host (.write 0 7)] }.busy = false ∧
    { keyed with agenda := [.host (.write 0 7)] }.agenda = .host (.write 0x000 7) :: [] := by decide
theorem witness_BusyAccesses : (keyed.issue 0x0008).busy = true := by decide
theorem witness_StepRunsTheCommandInFlight : (keyed.issue 0x0008).busy = true ∧ Instr.enc.wellFormed = true ∧
    decode (keyed.issue 0x0008).cur = .enc ∧ (keyed.issue 0x0008).agenda = [] ∧
    { keyed.issue 0x0008 with agenda := [.sequencer, .reset] }.agenda = .sequencer :: [.reset] := by decide
/-- An idle block with nothing to come, and one with the sequencer's turn first. -/
theorem witness_StepRunsTheCommandInFlight_idle : keyed.busy = false ∧ keyed.agenda = [] ∧
    { keyed with agenda := [.sequencer] }.busy = false ∧ { keyed with agenda := [.sequencer] }.agenda = .sequencer :: [] := by
  decide
theorem witness_PlacedCommandRunsNext : 0x0007 < 2 ^ 16 ∧ 0xffff < 2 ^ 16 := by decide
theorem witness_ResetLeavesTheSpecValues : (0x008 ≤ (0x008 : Addr).toNat ∧ (0x008 : Addr).toNat ≤ 0x013) ∧
    (0x008 ≤ (0x013 : Addr).toNat ∧ (0x013 : Addr).toNat ≤ 0x013) ∧
    (0x018 ≤ (0x01F : Addr).toNat ∧ (0x01F : Addr).toNat ≤ 0x01F) := by decide
theorem witness_ResetInputRestoresAll : { keyed with agenda := [.reset] }.agenda = .reset :: [] := by decide
/-- A step that is no reset, of a block with a table whose command in flight is not KSCHED, and that is no host write. -/
theorem witness_TableChanges : (∃ t, step ((tabled 0 0 0 0 0).issue 0x0003) = .next t) ∧
    (∀ rest, ((tabled 0 0 0 0 0).issue 0x0003).agenda ≠ .reset :: rest) ∧
    ((tabled 0 0 0 0 0).issue 0x0003).tblValid = true ∧
    ¬(((tabled 0 0 0 0 0).issue 0x0003).busy = true ∧ decode ((tabled 0 0 0 0 0).issue 0x0003).cur = .ksched ∧
      (((tabled 0 0 0 0 0).issue 0x0003).agenda = [] ∨
        ∃ rest, ((tabled 0 0 0 0 0).issue 0x0003).agenda = .sequencer :: rest)) :=
  ⟨⟨_, rfl⟩, fun _ h => (nomatch h), rfl, fun h => absurd h.2.1 (by decide)⟩
/-- A host write that meets a KSCHED in flight is such a step too. -/
theorem witness_TableChanges_in_flight :
    (∃ t, step { (tabled 0 0 0 0 0).issue 0x0007 with agenda := [.host (.write 0x002 0)] } = .next t) ∧
    ¬(({ (tabled 0 0 0 0 0).issue 0x0007 with agenda := [.host (.write 0x002 0)] } : State).agenda = [] ∨
      ∃ rest, ({ (tabled 0 0 0 0 0).issue 0x0007 with agenda := [.host (.write 0x002 0)] } : State).agenda =
        .sequencer :: rest) :=
  ⟨⟨_, rfl⟩, fun h => by rcases h with h | ⟨_, h⟩ <;> cases h⟩
theorem witness_InputsChange : (∃ t, step (keyed.issue 0x0003) = .next t) ∧
    (∀ rest, (keyed.issue 0x0003).agenda ≠ .reset :: rest) ∧
    (∀ a v rest, (keyed.issue 0x0003).busy = false → (keyed.issue 0x0003).agenda ≠ .host (.write a v) :: rest) :=
  ⟨⟨_, rfl⟩, fun _ h => (nomatch h), fun _ _ _ h => (nomatch h)⟩

/-- A state with a key, a block and no table meets the invariant. -/
theorem keyed_inv : keyed.Inv :=
  ⟨by decide, by decide, by decide, by decide, by decide, by decide, by decide, by decide, by decide, by decide, by decide,
    by decide⟩
theorem witness_StepKeepsTheInvariant : keyed.Inv ∧ ∃ t, step keyed = .next t := ⟨keyed_inv, _, rfl⟩
/-- A state with a table meets it too. -/
theorem tabled_inv : (tabled 0x3bd8 0x0a08 0x7ff3 0x482d 0).Inv :=
  ⟨by decide, by decide, by decide, by decide +kernel, by decide +kernel, by decide, by decide, by decide, by decide,
    by decide, by decide, by decide⟩

/-- Two states that differ in an undefined word of KR, and both meet the invariant. -/
theorem witness_UndefinedWordsAreInvisible :
    keyed.Inv ∧ { keyed with kr := Oct.all8 7 }.Inv ∧ AgreeOnDefined keyed { keyed with kr := Oct.all8 7 } ∧
    keyed ≠ { keyed with kr := Oct.all8 7 } ∧ ∃ t, step keyed = .next t :=
  ⟨keyed_inv, ⟨keyed_inv.1, keyed_inv.2, keyed_inv.3, keyed_inv.4, keyed_inv.5, keyed_inv.6, keyed_inv.7, keyed_inv.8,
      keyed_inv.9, keyed_inv.10, keyed_inv.11, keyed_inv.12⟩,
    ⟨fun _ _ => rfl, fun _ _ => rfl, fun i h => by revert h; revert i; decide, fun h => (nomatch h), rfl⟩,
    by decide, _, rfl⟩

end Sys2Proof.Tests
end

/-! # Proofs: the rotations (00_scope.md R11) -/

namespace Sys2Proof.Machine

/-- R11's left rotation on numbers. -/
theorem toNat_rotl16 (x : Word) (n : Nat) :
    (rotl16 x n).toNat = (x.toNat <<< n ||| x.toNat >>> (16 - n)) % 2 ^ 16 := by
  have hfits : x.toNat >>> (16 - n) < 2 ^ 16 :=
    lt_of_le_of_lt (Nat.shiftRight_le _ _) x.isLt
  rw [rotl16, BitVec.toNat_or, BitVec.toNat_shiftLeft, BitVec.toNat_ushiftRight, Nat.or_mod_two_pow,
    Nat.mod_eq_of_lt hfits]

/-- R11's right rotation on numbers. -/
theorem toNat_rotr16 (x : Word) {n : Nat} (h : n ≤ 16) :
    (rotr16 x n).toNat = (x.toNat <<< (16 - n) ||| x.toNat >>> n) % 2 ^ 16 := by
  rw [rotr16, toNat_rotl16, Nat.sub_sub_self h]

/-- Bit i of a rotated word: the low n bits come from the top, the others from n places below. -/
theorem getLsbD_rotl16 (x : Word) {n i : Nat} (hn : n ≤ 16) (hi : i < 16) :
    (rotl16 x n).getLsbD i = if i < n then x.getLsbD (16 - n + i) else x.getLsbD (i - n) := by
  rw [rotl16, BitVec.getLsbD_or, BitVec.getLsbD_shiftLeft, BitVec.getLsbD_ushiftRight]
  by_cases hin : i < n
  · simp [hin]
  · have habove : x.getLsbD (16 - n + i) = false := BitVec.getLsbD_of_ge _ _ (by omega)
    simp [hin, hi, habove]

/-- Two left rotations by 16 places in all are none. -/
theorem rotl16_rotl16_cancel (x : Word) {m n : Nat} (h : n + m = 16) : rotl16 (rotl16 x n) m = x := by
  refine BitVec.eq_of_getLsbD_eq fun i hi => ?_
  rw [getLsbD_rotl16 _ (by omega) hi]
  by_cases him : i < m
  · rw [if_pos him, getLsbD_rotl16 x (by omega) (by omega), if_neg (by omega), show 16 - m + i - n = i by omega]
  · rw [if_neg him, getLsbD_rotl16 x (by omega) (by omega), if_pos (by omega), show 16 - n + (i - m) = i by omega]

theorem rotr16_rotl16 (x : Word) {n : Nat} (h : n ≤ 16) : rotr16 (rotl16 x n) n = x :=
  rotl16_rotl16_cancel x (by omega)

/-- Settles O6: the two shifts as numbers, and bit by bit that the rotations undo each other. -/
theorem rotationsAreCircular : Obligations.RotationsAreCircular := by
  intro x n _ hn
  exact ⟨toNat_rotl16 x n, toNat_rotr16 x (by omega), rotr16_rotl16 x (by omega)⟩

end Sys2Proof.Machine

/-! # Proofs: the invariant (Safety.lean) -/

namespace Sys2Proof.Machine

/-! ## STATUS's fields -/

/-- What the invariant says of ERR and CAUSE together (60_exceptions.md R230, R231; 43_key_schedule.md R162). -/
structure StatusConsistent (e : ErrCode) (c : Cause) : Prop where
  causeOnlyConfig : e ≠ .configError → c = Cause.clear
  configHasCause : e = .configError → c ≠ Cause.clear
  rpsExclusive : ¬(c.rpsTooLarge = true ∧ c.rpsTooSmall = true)
  stepsExclusive : ¬(c.stepsZero = true ∧ c.capacity = true)

/-- Every error but ConfigError, and no error, go with an empty CAUSE. -/
theorem StatusConsistent.clear {e : ErrCode} (h : e ≠ .configError) : StatusConsistent e Cause.clear where
  causeOnlyConfig _ := rfl
  configHasCause he := absurd he h
  rpsExclusive := by simp [Cause.clear]
  stepsExclusive := by simp [Cause.clear]

/-- The causes of a refused configuration (43_key_schedule.md R162): some, and no two that contradict each other. -/
theorem StatusConsistent.config {maxSteps n r : Nat} (h : configCause maxSteps n r ≠ Cause.clear) :
    StatusConsistent .configError (configCause maxSteps n r) where
  causeOnlyConfig he := absurd rfl he
  configHasCause _ := h
  rpsExclusive := by
    simp only [configCause, decide_eq_true_eq]
    omega
  stepsExclusive := by
    simp only [configCause, decide_eq_true_eq]
    omega

/-- What a command raises is consistent. -/
theorem Raised.statusConsistent {s : State} {i : Instr} {e : CommandError} (h : Raised s i e) :
    StatusConsistent e.err e.cause := by
  cases h with
  | config hc => exact .config (mt (configCause_clear_iff _ _ _).mp hc)
  | noTableEnc | noTableDec | noTableEncs | noTableDecs | rangeEncs | rangeDecs | illegal =>
    exact .clear (by simp [CommandError.err])

/-! ## Configuration words -/

theorem cfgWritable_lt (v : Word) : (cfgWritable v).toNat < 0x800 := by
  rw [cfgWritable, BitVec.toNat_and]
  exact lt_of_le_of_lt Nat.and_le_right (by decide)

@[simp] theorem stepsField_cfgWritable (v : Word) : stepsField (cfgWritable v) = stepsField v := by
  have hmask : (0x07FF : Word).extractLsb' 0 8 = BitVec.allOnes 8 := by decide
  rw [stepsField, cfgWritable, BitVec.extractLsb'_and, hmask, BitVec.and_allOnes, stepsField]

@[simp] theorem rpsField_cfgWritable (v : Word) : rpsField (cfgWritable v) = rpsField v := by
  have hmask : (0x07FF : Word).extractLsb' 8 3 = BitVec.allOnes 3 := by decide
  rw [rpsField, cfgWritable, BitVec.extractLsb'_and, hmask, BitVec.and_allOnes, rpsField]

/-- The table's N is the N that KSCHED found in CFG (10_state.md R30). -/
theorem State.tblSteps_withTable (s : State) (m : Memory) (d : Oct Bool) :
    (s.withTable m (cfgWritable s.cfg) d).tblSteps = s.cfgSteps := stepsField_cfgWritable s.cfg

/-- The table's R is the R that KSCHED found in CFG (10_state.md R30). -/
theorem State.tblRps_withTable (s : State) (m : Memory) (d : Oct Bool) :
    (s.withTable m (cfgWritable s.cfg) d).tblRps = s.cfgRps := rpsField_cfgWritable s.cfg

/-! ## What each operation keeps of the invariant

An update of fields that the invariant does not read keeps it as it stands: `{ h with }`. -/

theorem State.Inv.withSt {s : State} (h : s.Inv) (q : Quad Word) (d : Quad Bool) : (s.withSt q d).Inv := { h with }

theorem State.Inv.withKr {s : State} (h : s.Inv) (k : Oct Word) (d : Oct Bool) : (s.withKr k d).Inv := { h with }

theorem State.Inv.discardKr {s : State} (h : s.Inv) : s.discardKr.Inv := { h with }

theorem State.Inv.noteUse {s : State} (h : s.Inv) (d : Bool) : (s.noteUse d).Inv := { h with }

theorem State.Inv.withAgenda {s : State} (h : s.Inv) (l : List Event) : (s.withAgenda l).Inv := { h with }

/-- A completion with a consistent STATUS keeps the invariant. -/
theorem State.Inv.complete {s : State} (h : s.Inv) {e : ErrCode} {c : Cause} (hc : StatusConsistent e c) :
    (s.complete e c).Inv :=
  { hc, h with busyClear := fun hb => nomatch hb }

/-- The issue of a command clears ERR and CAUSE (10_state.md R33). -/
theorem State.Inv.issue {s : State} (h : s.Inv) (v : Word) : (s.issue v).Inv :=
  { StatusConsistent.clear (e := .none) (by decide), h with busyClear := fun _ => rfl }

/-- The table KSCHED builds from an accepted configuration stays in the storage and has that configuration
(43_key_schedule.md R164). -/
theorem State.Inv.withBuiltTable {s : State} (h : s.Inv) (d : Oct Bool)
    (hcfg : (1 ≤ s.cfgSteps ∧ s.cfgSteps ≤ s.maxSteps.toNat) ∧ 2 ≤ s.cfgRps ∧ s.cfgRps ≤ 4) :
    (s.withTable (buildTable s.mkey s.cfgSteps s.cfgRps s.sk) (cfgWritable s.cfg) d).Inv := by
  obtain ⟨⟨hn, hmax⟩, hr, hr4⟩ := hcfg
  have hend : skAddr (2 * s.cfgSteps + 1) 0 ≤ s.skEnd := by
    unfold State.skEnd skAddr
    omega
  exact { h with
    tblCfgReserved := cfgWritable_lt s.cfg
    storageWf := buildTable_wf _ _ _ _ h.storageWf
    storageWithin := buildTable_within _ _ _ _ _ h.storageWithin hend
    tableShape := fun _ => by
      rw [State.tblSteps_withTable, State.tblRps_withTable]
      exact ⟨hn, hmax, hr, hr4⟩
    noTable := fun hv => nomatch hv }

/-- The reset values meet the invariant (10_state.md R37), whatever MAX_STEPS ≥ 1 is. -/
theorem State.applyReset_inv {s : State} (h : 1 ≤ s.maxSteps.toNat) : s.applyReset.Inv :=
  { StatusConsistent.clear (e := .none) (by decide) with
    cfgReserved := by simp
    tblCfgReserved := by simp
    maxStepsPos := h
    storageWf := rfl
    storageWithin := rfl
    tableShape := fun hv => nomatch hv
    noTable := fun _ => ⟨rfl, rfl, rfl⟩
    busyClear := fun _ => rfl }

/-! ## What each kind of step keeps -/

/-- What a command computes meets the invariant: only KSCHED writes something that the invariant reads. -/
theorem Computed.inv {s u : State} {i : Instr} (h : s.Inv) (hu : Computed s i u) : u.Inv := by
  cases hu with
  | nop => exact h
  | arx | arxi | lin | lini | enc | dec | encs | decs => exact h.withSt _ _
  | kload | kperm => exact h.withKr _ _
  | ksched hcfg => exact (h.withBuiltTable _ hcfg).discardKr

theorem exec_keeps_inv {i : Instr} {s t : State} (h : s.Inv) (he : exec i s = .next t) : t.Inv := by
  rcases exec_next he with ⟨u, hu, rfl⟩ | ⟨e, hr, rfl⟩
  · exact ((hu.inv h).complete (.clear (by decide))).noteUse _
  · exact h.complete hr.statusConsistent

theorem sequencerTurn_keeps_inv {s t : State} (h : s.Inv) (ht : sequencerTurn s = .next t) : t.Inv := by
  rcases sequencerTurn_cases ht with ⟨_, he⟩ | ⟨_, rfl⟩
  · exact exec_keeps_inv h he
  · exact h

theorem State.Inv.hostRead {s : State} (h : s.Inv) (a : Addr) : (s.hostRead a).Inv := by
  rcases s.hostRead_cases a with ⟨v, _, hr⟩ | ⟨_, hr⟩ <;> rw [hr] <;> exact { h with }

theorem State.Inv.store {s : State} (h : s.Inv) (r : Reg) (v : Word) : (s.store r v).Inv := by
  rcases s.store_cases r v with hs | ⟨_, hs⟩ | ⟨_, hs⟩ | ⟨_, hs⟩ | ⟨_, hs⟩ | ⟨i, _, hs⟩ | ⟨i, _, hs⟩ <;> rw [hs]
  · exact h
  · exact h.issue v
  · exact { h with cfgReserved := cfgWritable_lt v }
  all_goals exact { h with }

theorem State.Inv.access {s : State} (h : s.Inv) (x : HostAccess) : (s.access x).Inv := by
  cases x with
  | read a => exact h.hostRead a
  | write a v =>
    change (s.hostWrite a v).Inv
    cases hb : s.busy with
    | true => rwa [State.hostWrite_busy hb]
    | false =>
      rw [State.hostWrite_idle hb]
      exact h.store _ _

/-- MAX_STEPS is at least 1, whatever value in 1..255 the implementation has (00_scope.md R8). -/
theorem one_le_maxSteps : 1 ≤ Config.maxSteps.toNat := by
  have hlt := Config.maxStepsLessOne.isLt
  rw [Config.maxSteps, BitVec.toNat_ofNat, Nat.mod_eq_of_lt (by omega)]
  omega

/-- Settles O55: the state after reset is what the reset input makes of it. -/
theorem invariantAtReset : Obligations.InvariantAtReset :=
  State.applyReset_inv (s := State.reset) one_le_maxSteps

/-- Settles O56, by the kind of step: the sequencer's turn, a host access, or the reset input. -/
theorem stepKeepsTheInvariant : Obligations.StepKeepsTheInvariant := by
  intro s t h ht
  rcases step_cases ht with ⟨_, hturn⟩ | ⟨rest, _, hturn⟩ | ⟨x, rest, _, rfl⟩ | ⟨rest, _, rfl⟩
  · exact sequencerTurn_keeps_inv h hturn
  · exact sequencerTurn_keeps_inv (h.withAgenda rest) hturn
  · exact (h.withAgenda rest).access x
  · exact State.applyReset_inv (h.withAgenda rest).maxStepsPos

end Sys2Proof.Machine

/-! # Proofs: a step and a command as equations (10_state.md R33; 20_memory.md R62)

The converses of step_cases and exec_next: from what stands first on the agenda, and from what a command computes or
raises, the next state. -/

namespace Sys2Proof.Machine

variable {s : State}

theorem step_of_nil (h : s.agenda = []) : step s = sequencerTurn s := by
  rw [step, h]

theorem step_of_sequencer {rest : List Event} (h : s.agenda = .sequencer :: rest) :
    step s = sequencerTurn (s.withAgenda rest) := by
  rw [step, h]

theorem step_of_host {x : HostAccess} {rest : List Event} (h : s.agenda = .host x :: rest) :
    step s = .next ((s.withAgenda rest).access x) := by
  rw [step, h]

theorem step_of_reset {rest : List Event} (h : s.agenda = .reset :: rest) :
    step s = .next (s.withAgenda rest).applyReset := by
  rw [step, h]

theorem sequencerTurn_busy (h : s.busy = true) : sequencerTurn s = exec s.command s := if_pos h

theorem sequencerTurn_idle (h : s.busy = false) : sequencerTurn s = .next s :=
  if_neg (Bool.eq_false_iff.mp h)

theorem State.hostRead_of_some {a : Addr} {v : Word} (h : s.peek a = some v) :
    s.hostRead a = { s with replies := s.replies ++ [v] } := by
  rw [State.hostRead, h]

theorem State.hostRead_of_none {a : Addr} (h : s.peek a = none) :
    s.hostRead a =
      ({ s with replies := s.replies ++ [Config.freeWord s.draws], draws := s.draws + 1 } : State).noteUse s.busy := by
  rw [State.hostRead, h]

/-- No state and no command has both: what a command computes excludes every error. -/
theorem Computed.not_raised {i : Instr} {u : State} {e : CommandError} (hu : Computed s i u) : ¬Raised s i e := by
  intro he
  cases hu with
  | nop | arx | arxi | lin | lini | kload | kperm => cases he
  | ksched h => cases he with | config hn => exact hn h
  | enc h => cases he with | noTableEnc hn => exact Bool.false_ne_true (hn.symm.trans h)
  | dec h => cases he with | noTableDec hn => exact Bool.false_ne_true (hn.symm.trans h)
  | encs h hr =>
    cases he with
    | noTableEncs hn => exact Bool.false_ne_true (hn.symm.trans h)
    | rangeEncs _ hn => exact hn hr
  | decs h hr =>
    cases he with
    | noTableDecs hn => exact Bool.false_ne_true (hn.symm.trans h)
    | rangeDecs _ hn => exact hn hr

theorem Computed.unique {i : Instr} {u v : State} (hu : Computed s i u) (hv : Computed s i v) : u = v := by
  cases hu <;> cases hv <;> rfl

theorem Raised.unique {i : Instr} {e f : CommandError} (he : Raised s i e) (hf : Raised s i f) : e = f := by
  cases he with
  | config | noTableEnc | noTableDec | illegal => cases hf; rfl
  | noTableEncs h =>
    cases hf with
    | noTableEncs => rfl
    | rangeEncs hv => exact absurd (h.symm.trans hv) Bool.false_ne_true
  | noTableDecs h =>
    cases hf with
    | noTableDecs => rfl
    | rangeDecs hv => exact absurd (h.symm.trans hv) Bool.false_ne_true
  | rangeEncs hv =>
    cases hf with
    | noTableEncs h => exact absurd (h.symm.trans hv) Bool.false_ne_true
    | rangeEncs => rfl
  | rangeDecs hv =>
    cases hf with
    | noTableDecs h => exact absurd (h.symm.trans hv) Bool.false_ne_true
    | rangeDecs => rfl

/-- A command that computes u completes in it. -/
theorem Computed.exec_eq {i : Instr} {u : State} (hu : Computed s i u) :
    exec i s = .next ((u.complete .none Cause.clear).noteUse (s.operandsDefined i)) := by
  rcases exec_cases i s with ⟨v, hv, he⟩ | ⟨e, hr, _⟩
  · rw [hu.unique hv, he]
  · exact absurd hr hu.not_raised

/-- A command that raises e completes in the state before it, with e in STATUS. -/
theorem Raised.exec_eq {i : Instr} {e : CommandError} (he : Raised s i e) : exec i s = .next (s.takeError e) := by
  rcases exec_cases i s with ⟨u, hu, _⟩ | ⟨f, hf, hx⟩
  · exact absurd he hu.not_raised
  · rw [hx, he.unique hf, he.operandsDefined, State.noteUse_true]

end Sys2Proof.Machine

/-! # Proofs: undefined words are invisible (10_state.md R38)

One rule per state operation: it takes two states that agree on their defined words to two that agree again. A unit's own
rule (Laws/Defined.lean) supplies what the operation writes. -/

namespace Sys2Proof.Machine

/-- The words of MK or KR that d marks are equal. -/
def AgreeOct (d : Oct Bool) (x y : Oct Word) : Prop := ∀ i, d.get i = true → x.get i = y.get i

/-- A word of MK that both sides write agrees, whatever it held. -/
theorem AgreeOct.set {d : Oct Bool} {x y : Oct Word} (h : AgreeOct d x y) (i : Fin 8) (v : Word) :
    AgreeOct (d.set i true) (x.set i v) (y.set i v) := by
  intro j hj
  by_cases hij : i = j
  · subst hij
    rw [Oct.get_set_same, Oct.get_set_same]
  · rw [Oct.get_set_other _ _ hij] at hj ⊢
    rw [Oct.get_set_other _ _ hij]
    exact h j hj

/-- A word of ST that both sides write agrees, whatever it held. -/
theorem AgreeQuad.set {d : Quad Bool} {x y : Quad Word} (h : AgreeQuad d x y) (i : Fin 4) (v : Word) :
    AgreeQuad (d.set i true) (x.set i v) (y.set i v) := by
  rw [agreeQuad_iff] at h ⊢
  intro j hj
  by_cases hij : i = j
  · subst hij
    rw [Quad.get_set_same, Quad.get_set_same]
  · rw [Quad.get_set_other _ _ hij] at hj ⊢
    rw [Quad.get_set_other _ _ hij]
    exact h j hj

/-- s with other contents in the registers and the storage whose words may be undefined. -/
def State.withWords (s : State) (x : Quad Word) (k l : Oct Word) (m : Memory) : State :=
  { s with st := x, mkey := k, kr := l, sk := m }

/-- What a read of a data word gives depends on the word only where it is defined. -/
theorem ite_some_eq {p : Bool} {x y : Word} (h : p = true → x = y) :
    (if p then some x else none) = if p then some y else none := by
  cases p with
  | true => simp [h rfl]
  | false => rfl

namespace AgreeOnDefined

variable {s t : State}

theorem refl (s : State) : AgreeOnDefined s s where
  st _ _ := rfl
  mkey _ _ := rfl
  kr _ _ := rfl
  sk _ _ _ _ _ _ := rfl
  rest := rfl

/-- The second state is the first with other data words; all else about it is then the first's by definition. -/
theorem exists_withWords (h : AgreeOnDefined s t) : ∃ x k l m, t = s.withWords x k l m := ⟨_, _, _, _, h.rest⟩

theorem agreeQuad (h : AgreeOnDefined s t) : AgreeQuad s.stDef s.st t.st := (agreeQuad_iff _ _ _).mpr h.st

/-! ## The rules of the state's operations -/

/-- ST replaced by words that agree. -/
theorem withSt (h : AgreeOnDefined s t) {d : Quad Bool} {x y : Quad Word} (hq : AgreeQuad d x y) :
    AgreeOnDefined (s.withSt x d) (t.withSt y d) :=
  { h with st := (agreeQuad_iff _ _ _).mp hq, rest := congrArg (State.withSt · y d) h.rest }

/-- KR replaced by words that agree. -/
theorem withKr (h : AgreeOnDefined s t) {d : Oct Bool} {x y : Oct Word} (hk : AgreeOct d x y) :
    AgreeOnDefined (s.withKr x d) (t.withKr y d) :=
  { h with kr := hk, rest := congrArg (State.withKr · y d) h.rest }

/-- The table replaced by one that agrees in its logical words. -/
theorem withTable (h : AgreeOnDefined s t) {m m' : Memory} {c : Word} {d : Oct Bool}
    (hm : ∀ e w, e ≤ 2 * stepsField c → w < 2 * rpsField c → (keyDefAt d e).get (Fin.ofNat 8 w) = true →
      m.read (skAddr e w) = m'.read (skAddr e w)) :
    AgreeOnDefined (s.withTable m c d) (t.withTable m' c d) :=
  { h with sk := fun _ => hm, rest := congrArg (State.withTable · m' c d) h.rest }

/-- Both draw the same eight free values. -/
theorem discardKr (h : AgreeOnDefined s t) : AgreeOnDefined s.discardKr t.discardKr := by
  obtain ⟨x, k, l, m, rfl⟩ := h.exists_withWords
  exact { h with kr := fun _ _ => rfl, rest := rfl }

theorem complete (h : AgreeOnDefined s t) (e : ErrCode) (c : Cause) :
    AgreeOnDefined (s.complete e c) (t.complete e c) :=
  { h with rest := congrArg (State.complete · e c) h.rest }

theorem noteUse (h : AgreeOnDefined s t) (d : Bool) : AgreeOnDefined (s.noteUse d) (t.noteUse d) :=
  { h with rest := congrArg (State.noteUse · d) h.rest }

theorem withAgenda (h : AgreeOnDefined s t) (l : List Event) : AgreeOnDefined (s.withAgenda l) (t.withAgenda l) :=
  { h with rest := congrArg (State.withAgenda · l) h.rest }

/-- The reset input gives every data word its value, so the two states become one. -/
theorem applyReset (h : AgreeOnDefined s t) : AgreeOnDefined s.applyReset t.applyReset := by
  obtain ⟨x, k, l, m, rfl⟩ := h.exists_withWords
  exact refl _

/-! ## The commands -/

/-- One branch of ST replaced by a function of both its words (40_round_function.md R104, R105). -/
theorem onBranch (h : AgreeOnDefined s t) (b : Branch) (f : Word → Word → Word × Word) :
    AgreeOnDefined (s.onBranch b f) (t.onBranch b f) := by
  obtain ⟨x, k, l, m, rfl⟩ := h.exists_withWords
  exact h.withSt (h.agreeQuad.setBranch b ((h.agreeQuad b).mixed f))

/-- KSCHED from keys that agree gives tables that agree (43_key_schedule.md R161). -/
theorem withBuiltTable (h : AgreeOnDefined s t) (hs : s.sk.wf = true) (ht : t.sk.wf = true) (hr : s.cfgRps ≤ 4) :
    AgreeOnDefined
      (s.withTable (buildTable s.mkey s.cfgSteps s.cfgRps s.sk) (cfgWritable s.cfg) s.mkeyDef)
      (t.withTable (buildTable t.mkey s.cfgSteps s.cfgRps t.sk) (cfgWritable s.cfg) s.mkeyDef) := by
  have recorded (k : Oct Word) {m : Memory} (hm : m.wf = true) (e : Nat) (w : Fin 8)
      (hew : 0 ≤ e ∧ e < 0 + (2 * s.cfgSteps + 1) ∧ w.val < 2 * s.cfgRps) :
      (buildTable k s.cfgSteps s.cfgRps m).read (skAddr e w.val) = (keyAt k e).get w :=
    (read_recordEntries k s.cfgRps (2 * s.cfgSteps + 1) 0 hm e w).trans (if_pos hew)
  refine h.withTable fun e w he hw hd => ?_
  rw [stepsField_cfgWritable, ← State.cfgSteps] at he
  rw [rpsField_cfgWritable, ← State.cfgRps] at hw
  obtain ⟨w, rfl⟩ : ∃ i : Fin 8, w = i.val := ⟨⟨w, by omega⟩, rfl⟩
  rw [Fin.ofNat_eq_cast, Fin.cast_val_eq_self] at hd
  rw [recorded s.mkey hs e w (by omega), recorded t.mkey ht e w (by omega)]
  exact keyAt_agree h.mkey e w hd

/-- The entries that the steps of a valid range use, and the whitening's, are the table's (44_step_engine.md R180, R182). -/
theorem agreeTable (h : AgreeOnDefined s t) (hs : s.Inv) (hv : s.tblValid = true) {f u : Nat} (hf : 1 ≤ f)
    (hu : u ≤ s.tblSteps) : AgreeTable s.skWordDef s.skWord t.skWord s.tblSteps s.tblRps f u := by
  obtain ⟨_, _, hr, _⟩ := hs.tableShape hv
  refine ⟨fun i b hfi hiu w hw => h.sk hv _ w ?_ hw, fun _ w hw => h.sk hv _ w le_rfl (by omega)⟩
  cases b <;> simp only [subkeyEntry, branchNumber] <;> omega

theorem encrypt (h : AgreeOnDefined s t) (hs : s.Inv) (hv : s.tblValid = true) {f u : Nat} (hf : 1 ≤ f)
    (hu : u ≤ s.tblSteps) : AgreeOnDefined (s.encrypt f u) (t.encrypt f u) := by
  have htable := h.agreeTable hs hv hf hu
  obtain ⟨x, k, l, m, rfl⟩ := h.exists_withWords
  exact h.withSt (encRange_agree htable h.agreeQuad)

theorem decrypt (h : AgreeOnDefined s t) (hs : s.Inv) (hv : s.tblValid = true) {f u : Nat} (hf : 1 ≤ f)
    (hu : u ≤ s.tblSteps) : AgreeOnDefined (s.decrypt f u) (t.decrypt f u) := by
  have htable := h.agreeTable hs hv hf hu
  obtain ⟨x, k, l, m, rfl⟩ := h.exists_withWords
  exact h.withSt (decRange_agree htable h.agreeQuad)

/-- What the two states' commands compute agrees. -/
theorem computed (h : AgreeOnDefined s t) (hs : s.Inv) (ht : t.Inv) {i : Instr} {u : State} (hu : Computed s i u) :
    ∃ v, Computed t i v ∧ AgreeOnDefined u v := by
  obtain ⟨x, k, l, m, rfl⟩ := h.exists_withWords
  cases hu with
  | nop => exact ⟨_, .nop, h⟩
  | arx b => exact ⟨_, .arx b, h.onBranch b _⟩
  | arxi b => exact ⟨_, .arxi b, h.onBranch b _⟩
  | lin => exact ⟨_, .lin, h.withSt (linL_agree h.agreeQuad)⟩
  | lini => exact ⟨_, .lini, h.withSt (linLInv_agree h.agreeQuad)⟩
  | kload => exact ⟨_, .kload, h.withKr h.mkey⟩
  | kperm => exact ⟨_, .kperm, h.withKr (keyPerm_agree h.kr _)⟩
  | ksched hc => exact ⟨_, .ksched hc, (h.withBuiltTable hs.storageWf ht.storageWf hc.2.2).discardKr⟩
  | enc hv => exact ⟨_, .enc hv, h.encrypt hs hv le_rfl le_rfl⟩
  | dec hv => exact ⟨_, .dec hv, h.decrypt hs hv le_rfl le_rfl⟩
  | encs hv hr => exact ⟨_, .encs hv hr, h.encrypt hs hv hr.1 hr.2.2⟩
  | decs hv hr => exact ⟨_, .decs hv hr, h.decrypt hs hv hr.1 hr.2.2⟩

/-- No error depends on a data word. -/
theorem raised (h : AgreeOnDefined s t) {i : Instr} {e : CommandError} (he : Raised s i e) : Raised t i e := by
  obtain ⟨x, k, l, m, rfl⟩ := h.exists_withWords
  cases he with
  | config hc => exact .config hc
  | noTableEnc hv => exact .noTableEnc hv
  | noTableDec hv => exact .noTableDec hv
  | noTableEncs hv => exact .noTableEncs hv
  | noTableDecs hv => exact .noTableDecs hv
  | rangeEncs hv hr => exact .rangeEncs hv hr
  | rangeDecs hv hr => exact .rangeDecs hv hr
  | illegal w => exact .illegal w

theorem operandsDefined_eq (h : AgreeOnDefined s t) (i : Instr) : t.operandsDefined i = s.operandsDefined i := by
  obtain ⟨x, k, l, m, rfl⟩ := h.exists_withWords
  cases i <;> rfl

theorem after_exec (h : AgreeOnDefined s t) (hs : s.Inv) (ht : t.Inv) {i : Instr} {s' : State} (he : exec i s = .next s') :
    ∃ t', exec i t = .next t' ∧ AgreeOnDefined s' t' := by
  rcases exec_next he with ⟨u, hu, rfl⟩ | ⟨e, hr, rfl⟩
  · obtain ⟨v, hv, huv⟩ := h.computed hs ht hu
    exact ⟨_, hv.exec_eq, h.operandsDefined_eq i ▸ (huv.complete _ _).noteUse _⟩
  · exact ⟨_, (h.raised hr).exec_eq, h.complete _ _⟩

/-! ## The host -/

theorem peekWindow_eq (h : AgreeOnDefined s t) (c w : Nat) : s.peekWindow c w = t.peekWindow c w := by
  have hsk := h.sk
  obtain ⟨x, k, l, m, rfl⟩ := h.exists_withWords
  refine ite_congr rfl (fun hv => ite_congr rfl (fun hcw => ?_) fun _ => rfl) fun _ => rfl
  exact ite_some_eq (hsk hv c w hcw.1 hcw.2)

/-- No read depends on an undefined word. -/
theorem peek_eq (h : AgreeOnDefined s t) (a : Addr) : s.peek a = t.peek a := by
  have hwindow := h.peekWindow_eq
  obtain ⟨x, k, l, m, rfl⟩ := h.exists_withWords
  have idle (r : Reg) : s.peekIdle r = (s.withWords x k l m).peekIdle r := by
    cases r with
    | mkey i => exact ite_some_eq (h.mkey i)
    | st i => exact ite_some_eq (h.st i)
    | kr i => exact ite_some_eq (h.kr i)
    | sk c w => exact hwindow c w
    | cmd | status | cfg | range | ridx | tblCfg | param | reserved => rfl
  have busy (r : Reg) : s.peekBusy r = (s.withWords x k l m).peekBusy r := by cases r <;> rfl
  rw [State.peek, State.peek, idle, busy]
  rfl

theorem hostRead (h : AgreeOnDefined s t) (a : Addr) : AgreeOnDefined (s.hostRead a) (t.hostRead a) := by
  have hpeek := h.peek_eq a
  obtain ⟨x, k, l, m, rfl⟩ := h.exists_withWords
  rw [State.hostRead, State.hostRead, ← hpeek]
  cases s.peek a with
  | some v => exact { h with rest := rfl }
  | none => exact { h with rest := rfl }

theorem store (h : AgreeOnDefined s t) (r : Reg) (v : Word) : AgreeOnDefined (s.store r v) (t.store r v) := by
  have hquad := h.agreeQuad
  obtain ⟨x, k, l, m, rfl⟩ := h.exists_withWords
  cases r with
  | mkey i => exact { h with mkey := AgreeOct.set h.mkey i v, rest := rfl }
  | st i => exact { h with st := (agreeQuad_iff _ _ _).mp (hquad.set i v), rest := rfl }
  | cmd | cfg | range | ridx => exact { h with rest := rfl }
  | status | tblCfg | param | kr | sk | reserved => exact h

theorem hostWrite (h : AgreeOnDefined s t) (a : Addr) (v : Word) : AgreeOnDefined (s.hostWrite a v) (t.hostWrite a v) := by
  have hbusy : t.busy = s.busy := by rw [h.rest]
  cases hb : s.busy with
  | true => rwa [State.hostWrite_busy hb, State.hostWrite_busy (hbusy.trans hb)]
  | false =>
    rw [State.hostWrite_idle hb, State.hostWrite_idle (hbusy.trans hb)]
    exact h.store _ v

theorem access (h : AgreeOnDefined s t) : (x : HostAccess) → AgreeOnDefined (s.access x) (t.access x)
  | .read a => h.hostRead a
  | .write a v => h.hostWrite a v

/-! ## The step -/

theorem after_sequencerTurn (h : AgreeOnDefined s t) (hs : s.Inv) (ht : t.Inv) {s' : State}
    (hturn : sequencerTurn s = .next s') : ∃ t', sequencerTurn t = .next t' ∧ AgreeOnDefined s' t' := by
  obtain ⟨x, k, l, m, rfl⟩ := h.exists_withWords
  rcases sequencerTurn_cases hturn with ⟨hb, he⟩ | ⟨hb, rfl⟩
  · rw [sequencerTurn_busy (s := s.withWords x k l m) hb]
    exact h.after_exec hs ht he
  · exact ⟨_, sequencerTurn_idle hb, h⟩

end AgreeOnDefined

/-- Settles O58, by the kind of step: the sequencer's turn, a host access, or the reset input. -/
theorem undefinedWordsAreInvisible : Obligations.UndefinedWordsAreInvisible := by
  intro s t s' hs ht h hstep
  have hagenda : t.agenda = s.agenda := by rw [h.rest]
  rcases step_cases hstep with ⟨ha, hturn⟩ | ⟨rest, ha, hturn⟩ | ⟨x, rest, ha, rfl⟩ | ⟨rest, ha, rfl⟩
  · rw [step_of_nil (hagenda.trans ha)]
    exact h.after_sequencerTurn hs ht hturn
  · rw [step_of_sequencer (hagenda.trans ha)]
    exact (h.withAgenda rest).after_sequencerTurn (hs.withAgenda rest) (ht.withAgenda rest) hturn
  · exact ⟨_, step_of_host (hagenda.trans ha), (h.withAgenda rest).access x⟩
  · exact ⟨_, step_of_reset (hagenda.trans ha), (h.withAgenda rest).applyReset⟩

end Sys2Proof.Machine

/-! # Proofs: the register map and what each address reads (20_memory.md R52 to R57) -/

namespace Sys2Proof.Machine

/-! ## The map: the address of a register is decoded to it -/

theorem locate_address_mkey : ∀ i : Fin 8, locate (Reg.mkey i).address = .mkey i := by decide

theorem locate_address_st : ∀ i : Fin 4, locate (Reg.st i).address = .st i := by decide

theorem locate_address_kr : ∀ i : Fin 8, locate (Reg.kr i).address = .kr i := by decide

/-- R53's decoding of a window address, entry and word. -/
theorem locate_address_sk {c w : Nat} (hc : c ≤ 510) (hw : w ≤ 7) : locate (Reg.sk c w).address = .sk c w := by
  have haddr : (Reg.sk c w).address.toNat = 0x100 + 8 * c + w := by
    rw [Reg.address, BitVec.toNat_ofNat, skAddr]
    omega
  have hentry : (0x100 + 8 * c + w - 0x100) >>> 3 = c := by
    rw [Nat.shiftRight_eq_div_pow]
    omega
  have hword : (0x100 + 8 * c + w - 0x100) &&& 7 = w := by
    rw [show 7 = 2 ^ 3 - 1 by rfl, Nat.and_two_pow_sub_one_eq_mod]
    omega
  simp only [locate, haddr, hentry, hword]
  iterate 13 rw [if_neg (by omega)]
  rw [if_pos (by omega)]

/-! ## Reads -/

theorem State.peek_idle {s : State} (h : s.busy = false) (a : Addr) : s.peek a = s.peekIdle (locate a) :=
  if_neg (Bool.eq_false_iff.mp h)

/-- STATUS is readable at any time (20_memory.md R57). -/
theorem State.peek_status (s : State) : s.peek 0x001 = some s.status := ite_self _

/-- PARAM is readable at any time (20_memory.md R57). -/
theorem State.peek_param (s : State) : s.peek 0x006 = some s.param := ite_self _

/-- Settles O43: the address is decoded to SK[c][w]. -/
theorem windowReads : Obligations.WindowReads := by
  intro s c w hc hw hb
  have hpeek : s.peek (Reg.sk c w).address = s.peekWindow c w := by
    rw [State.peek_idle hb, locate_address_sk hc hw, State.peekIdle]
  exact hpeek

/-- Settles O44: each address is decoded to its register. -/
theorem dataWordReads : Obligations.DataWordReads := by
  intro s hb
  simp only [State.peek_idle hb]
  refine ⟨rfl, rfl, rfl, rfl, fun i => ?_, fun i => ?_, fun i => ?_⟩
  · exact congrArg s.peekIdle (locate_address_mkey i)
  · exact congrArg s.peekIdle (locate_address_st i)
  · exact congrArg s.peekIdle (locate_address_kr i)

/-! ## STATUS, bit by bit -/

theorem toNat_append_eq_add {m n : Nat} (x : BitVec m) (y : BitVec n) :
    (x ++ y).toNat = 2 ^ n * x.toNat + y.toNat := by
  rw [BitVec.toNat_append, ← Nat.shiftLeft_add_eq_or_of_lt y.isLt, Nat.shiftLeft_eq, Nat.mul_comm]

/-- The four cause bits are the number's binary digits (60_exceptions.md R231). -/
theorem Cause.toNat_bits (c : Cause) :
    c.bits.toNat =
      c.rpsTooLarge.toNat + 2 * c.rpsTooSmall.toNat + 4 * c.stepsZero.toNat + 8 * c.capacity.toNat := by
  simp only [Cause.bits, toNat_append_eq_add, BitVec.toNat_ofBool]
  omega

theorem State.toNat_status (s : State) :
    s.status.toNat = s.busy.toNat + 2 * s.tblValid.toNat + 16 * s.err.code.toNat + 256 * s.cause.bits.toNat := by
  simp only [State.status, toNat_append_eq_add, BitVec.toNat_ofBool, BitVec.ofNat_eq_ofNat, BitVec.toNat_ofNat]
  omega

/-- Settles O45: the fields of STATUS, the codes of ERR and the bits of CAUSE. -/
theorem statusWordLayout : Obligations.StatusWordLayout := by
  intro s
  refine ⟨State.peek_status s, ?_⟩
  rw [State.toNat_status, Cause.toNat_bits]
  cases s.err <;> simp only [ErrCode.code, BitVec.ofNat_eq_ofNat, BitVec.toNat_ofNat] <;> omega

/-! ## Reset -/

/-- Every word computed from an undefined key is undefined. -/
theorem keyDefAt_all8_false (c : Nat) : keyDefAt (Oct.all8 false) c = Oct.all8 false := by
  induction c with
  | zero => rfl
  | succ c ih =>
    rw [keyDefAt, ih]
    rfl

theorem addr_eq_ofNat {a : Addr} {n : Nat} (h : a.toNat = n) : a = BitVec.ofNat 13 n := by
  rw [← h, BitVec.ofNat_toNat, BitVec.setWidth_eq]

/-- The words of MK, ST and KR are unspecified after reset (10_state.md R37, R38). -/
theorem peek_reset {a : Addr} (h : (0x008 ≤ a.toNat ∧ a.toNat ≤ 0x013) ∨ (0x018 ≤ a.toNat ∧ a.toNat ≤ 0x01F)) :
    State.reset.peek a = none := by
  have named {r : Reg} (ha : a = r.address) (hl : locate r.address = r) (hr : State.reset.peekIdle r = none) :
      State.reset.peek a = none := by
    rw [State.peek_idle rfl, ha, hl, hr]
  have hmap : (0x008 ≤ a.toNat ∧ a.toNat < 0x010) ∨ (0x010 ≤ a.toNat ∧ a.toNat < 0x014) ∨
      (0x018 ≤ a.toNat ∧ a.toNat < 0x020) := by omega
  rcases hmap with hmk | hst | hkr
  · obtain ⟨i, hi⟩ : ∃ i : Fin 8, a.toNat = 0x008 + i.val :=
      ⟨⟨a.toNat - 0x008, by omega⟩, by dsimp only; omega⟩
    exact named (r := .mkey i) (addr_eq_ofNat hi) (locate_address_mkey i) (by simp [State.peekIdle, State.reset])
  · obtain ⟨i, hi⟩ : ∃ i : Fin 4, a.toNat = 0x010 + i.val :=
      ⟨⟨a.toNat - 0x010, by omega⟩, by dsimp only; omega⟩
    exact named (r := .st i) (addr_eq_ofNat hi) (locate_address_st i) (by simp [State.peekIdle, State.reset])
  · obtain ⟨i, hi⟩ : ∃ i : Fin 8, a.toNat = 0x018 + i.val :=
      ⟨⟨a.toNat - 0x018, by omega⟩, by dsimp only; omega⟩
    exact named (r := .kr i) (addr_eq_ofNat hi) (locate_address_kr i) (by simp [State.peekIdle, State.reset])

/-- Settles O51: the values of R37, and the words that no read specifies. -/
theorem resetLeavesTheSpecValues : Obligations.ResetLeavesTheSpecValues := by
  refine ⟨rfl, rfl, rfl, rfl, rfl, rfl, rfl, rfl, rfl, Quad.get_all4 false, Oct.get_all8 false, Oct.get_all8 false,
    fun c w => ?_, fun a => peek_reset⟩
  rw [State.skWordDef, show State.reset.skDef = Oct.all8 false by rfl, keyDefAt_all8_false, Oct.get_all8]

end Sys2Proof.Machine

/-! # Proofs: what a command and a step leave as it was (10_state.md R20 to R33; 30_encoding.md R83) -/

namespace Sys2Proof.Machine

variable {s t u : State} {i : Instr}

/-! ## Frames: every field that is not named keeps its value -/

/-- A command computes into ST, KR and the table (30_encoding.md R83); the count of free values goes on. -/
theorem Computed.frame (hu : Computed s i u) :
    u = { s with
      st := u.st, stDef := u.stDef, kr := u.kr, krDef := u.krDef, sk := u.sk, tblCfg := u.tblCfg, tblValid := u.tblValid,
      skDef := u.skDef, draws := u.draws } := by
  cases hu <;> rfl

/-- Beside what it computes a command writes BUSY, ERR, CAUSE and the run's mark. -/
theorem exec_frame (h : exec i s = .next t) :
    t = { s with
      st := t.st, stDef := t.stDef, kr := t.kr, krDef := t.krDef, sk := t.sk, tblCfg := t.tblCfg, tblValid := t.tblValid,
      skDef := t.skDef, draws := t.draws, busy := t.busy, err := t.err, cause := t.cause, faulted := t.faulted } := by
  rcases exec_next h with ⟨u, hu, rfl⟩ | ⟨e, _, rfl⟩
  · rw [hu.frame]
    rfl
  · rfl

theorem sequencerTurn_frame (h : sequencerTurn s = .next t) :
    t = { s with
      st := t.st, stDef := t.stDef, kr := t.kr, krDef := t.krDef, sk := t.sk, tblCfg := t.tblCfg, tblValid := t.tblValid,
      skDef := t.skDef, draws := t.draws, busy := t.busy, err := t.err, cause := t.cause, faulted := t.faulted } := by
  rcases sequencerTurn_cases h with ⟨_, he⟩ | ⟨_, rfl⟩
  · exact exec_frame he
  · rfl

/-- A host read writes none of the block's registers (20_memory.md R61). -/
theorem State.hostRead_frame (s : State) (a : Addr) :
    s.hostRead a = { s with
      replies := (s.hostRead a).replies, draws := (s.hostRead a).draws, faulted := (s.hostRead a).faulted } := by
  rcases s.hostRead_cases a with ⟨v, _, hr⟩ | ⟨_, hr⟩ <;> rw [hr]

/-- A host write writes no word of KR or of the table (20_memory.md R54), and no reply. -/
theorem State.hostWrite_frame (s : State) (a : Addr) (v : Word) :
    s.hostWrite a v = { s with
      st := (s.hostWrite a v).st, stDef := (s.hostWrite a v).stDef, mkey := (s.hostWrite a v).mkey,
      mkeyDef := (s.hostWrite a v).mkeyDef, cfg := (s.hostWrite a v).cfg, range := (s.hostWrite a v).range,
      ridx := (s.hostWrite a v).ridx, cur := (s.hostWrite a v).cur, busy := (s.hostWrite a v).busy,
      err := (s.hostWrite a v).err, cause := (s.hostWrite a v).cause } := by
  cases hb : s.busy with
  | true => rw [State.hostWrite_busy hb]
  | false =>
    rw [State.hostWrite_idle hb]
    cases locate a <;> rfl

/-! ## Which commands write ST, KR and the table -/

theorem exec_keeps_st (h : exec i s = .next t)
    (hi : i = .nop ∨ i = .kload ∨ i = .kperm ∨ i = .ksched ∨ ∃ w, i = .illegal w) :
    t.st = s.st ∧ t.stDef = s.stDef := by
  rcases exec_next h with ⟨u, hu, rfl⟩ | ⟨e, _, rfl⟩
  · cases hu with
    | nop | kload | kperm | ksched => exact ⟨rfl, rfl⟩
    | arx | arxi | lin | lini | enc | dec | encs | decs => simp at hi
  · exact ⟨rfl, rfl⟩

theorem exec_keeps_kr (h : exec i s = .next t) (h1 : i ≠ .kload) (h2 : i ≠ .kperm) (h3 : i ≠ .ksched) :
    t.kr = s.kr ∧ t.krDef = s.krDef := by
  rcases exec_next h with ⟨u, hu, rfl⟩ | ⟨e, _, rfl⟩
  · cases hu with
    | kload => exact absurd rfl h1
    | kperm => exact absurd rfl h2
    | ksched => exact absurd rfl h3
    | nop | arx | arxi | lin | lini | enc | dec | encs | decs => exact ⟨rfl, rfl⟩
  · exact ⟨rfl, rfl⟩

theorem exec_keeps_table (h : exec i s = .next t) (hi : i ≠ .ksched) :
    t.sk = s.sk ∧ t.tblCfg = s.tblCfg ∧ t.tblValid = s.tblValid ∧ t.skDef = s.skDef ∧ t.draws = s.draws := by
  rcases exec_next h with ⟨u, hu, rfl⟩ | ⟨e, _, rfl⟩
  · cases hu with
    | ksched => exact absurd rfl hi
    | nop | arx | arxi | lin | lini | kload | kperm | enc | dec | encs | decs => exact ⟨rfl, rfl, rfl, rfl, rfl⟩
  · exact ⟨rfl, rfl, rfl, rfl, rfl⟩

/-- No command takes a valid table back (10_state.md R25). -/
theorem exec_keeps_tblValid (h : exec i s = .next t) (hv : s.tblValid = true) : t.tblValid = true := by
  rcases exec_next h with ⟨u, hu, rfl⟩ | ⟨e, _, rfl⟩
  · cases hu with
    | ksched => rfl
    | nop | arx | arxi | lin | lini | kload | kperm | enc | dec | encs | decs => exact hv
  · exact hv

/-! ## The obligations on commands -/

/-- Settles O37: a command completes in what it computed or in its error, both with BUSY = 0. -/
theorem everyCommandCompletes : Obligations.EveryCommandCompletes := by
  intro i s
  rcases exec_cases i s with ⟨u, _, he⟩ | ⟨e, _, he⟩
  · exact ⟨_, he, rfl⟩
  · exact ⟨_, he, rfl⟩

/-- Settles O38: the frame of all commands, and the commands that write ST, KR and the table. -/
theorem commandsWriteOnlyTheirTargets : Obligations.CommandsWriteOnlyTheirTargets := by
  intro i s t h
  refine ⟨?_, exec_keeps_st h, exec_keeps_kr h, fun hi => ?_⟩
  · rw [exec_frame h]
    exact ⟨rfl, rfl, rfl, rfl, rfl, rfl, rfl, rfl, rfl⟩
  · obtain ⟨hsk, hcfg, hvalid, hdef, hdraws⟩ := exec_keeps_table h hi
    exact ⟨fun a => by rw [hsk], hsk, hcfg, hvalid, hdef, hdraws⟩

/-! ## The obligations on steps -/

theorem sequencerTurn_keeps_table (h : sequencerTurn s = .next t) :
    (s.tblValid = true → t.tblValid = true) ∧
    (¬(s.busy = true ∧ s.command = .ksched) →
      t.sk = s.sk ∧ t.tblCfg = s.tblCfg ∧ t.tblValid = s.tblValid ∧ t.skDef = s.skDef) := by
  rcases sequencerTurn_cases h with ⟨hb, he⟩ | ⟨_, rfl⟩
  · refine ⟨exec_keeps_tblValid he, fun hn => ?_⟩
    obtain ⟨hsk, hcfg, hvalid, hdef, _⟩ := exec_keeps_table he fun hi => hn ⟨hb, hi⟩
    exact ⟨hsk, hcfg, hvalid, hdef⟩
  · exact ⟨id, fun _ => ⟨rfl, rfl, rfl, rfl⟩⟩

/-- Settles O53, by the kind of step. -/
theorem tableChangesOnlyByKschedOrReset : Obligations.TableChangesOnlyByKschedOrReset := by
  intro s t h hreset
  rcases step_cases h with ⟨ha, hturn⟩ | ⟨rest, ha, hturn⟩ | ⟨x, rest, _, rfl⟩ | ⟨rest, ha, _⟩
  · obtain ⟨hvalid, hkeep⟩ := sequencerTurn_keeps_table hturn
    exact ⟨hvalid, fun hn => hkeep fun hk => hn ⟨hk.1, hk.2, .inl ha⟩⟩
  · obtain ⟨hvalid, hkeep⟩ := sequencerTurn_keeps_table hturn
    exact ⟨hvalid, fun hn => hkeep fun hk => hn ⟨hk.1, hk.2, .inr ⟨rest, ha⟩⟩⟩
  · cases x with
    | read a => rw [State.access, State.hostRead_frame]; exact ⟨id, fun _ => ⟨rfl, rfl, rfl, rfl⟩⟩
    | write a v => rw [State.access, State.hostWrite_frame]; exact ⟨id, fun _ => ⟨rfl, rfl, rfl, rfl⟩⟩
  · exact absurd ha (hreset rest)

/-- Settles O54, by the kind of step. -/
theorem inputsChangeOnlyByHostWriteOrReset : Obligations.InputsChangeOnlyByHostWriteOrReset := by
  intro s t h hreset hwrite
  rcases step_cases h with ⟨_, hturn⟩ | ⟨rest, _, hturn⟩ | ⟨x, rest, ha, rfl⟩ | ⟨rest, ha, _⟩
  · rw [sequencerTurn_frame hturn]
    exact ⟨rfl, rfl, rfl, rfl, rfl⟩
  · rw [sequencerTurn_frame hturn]
    exact ⟨rfl, rfl, rfl, rfl, rfl⟩
  · cases x with
    | read a =>
      rw [State.access, State.hostRead_frame]
      exact ⟨rfl, rfl, rfl, rfl, rfl⟩
    | write a v =>
      have hb : s.busy = true := Bool.eq_true_of_not_eq_false fun hb => hwrite a v rest hb ha
      rw [State.access, State.hostWrite_busy (s := s.withAgenda rest) hb]
      exact ⟨rfl, rfl, rfl, rfl, rfl⟩
  · exact absurd ha (hreset rest)

/-- MAX_STEPS is a constant (10_state.md R31). -/
theorem step_keeps_maxSteps (h : step s = .next t) : t.maxSteps = s.maxSteps := by
  rcases step_cases h with ⟨_, hturn⟩ | ⟨rest, _, hturn⟩ | ⟨x, rest, _, rfl⟩ | ⟨rest, _, rfl⟩
  · rw [sequencerTurn_frame hturn]
  · rw [sequencerTurn_frame hturn]
    rfl
  · cases x with
    | read a => rw [State.access, State.hostRead_frame]; rfl
    | write a v => rw [State.access, State.hostWrite_frame]; rfl
  · rfl

/-- Settles O46: PARAM shows IF_REV and MAX_STEPS, and no step changes MAX_STEPS. -/
theorem paramIsConstant : Obligations.ParamIsConstant := by
  refine ⟨fun s => ⟨s.param, State.peek_param s, ?_⟩, fun s t h => ?_⟩
  · rw [State.param, BitVec.toNat_append, ← Nat.shiftLeft_add_eq_or_of_lt s.maxSteps.isLt]
    rfl
  · have hmax := step_keeps_maxSteps h
    exact ⟨hmax, by rw [State.peek_param, State.peek_param, State.param, State.param, hmax]⟩

/-- Settles O49: the agenda is empty, or the sequencer's turn is taken off it. -/
theorem stepRunsTheCommandInFlight : Obligations.StepRunsTheCommandInFlight := by
  refine ⟨fun s i hb _ hi => ⟨fun ha => ?_, fun rest ha => ?_⟩, fun s hb => ⟨fun ha => ?_, fun rest ha => ?_⟩⟩
  · rw [step_of_nil ha, sequencerTurn_busy hb, State.command, hi]
  · subst hi
    rw [step_of_sequencer ha]
    exact sequencerTurn_busy hb
  · rw [step_of_nil ha, sequencerTurn_idle hb]
  · rw [step_of_sequencer ha]
    exact sequencerTurn_idle hb

/-- The step after a command word is placed runs it, and leaves the agenda that stood there. -/
theorem step_placeCommand (s : State) (v : Word) : step (s.placeCommand v) = exec (decode v) (s.issue v) := by
  cases ha : s.agenda with
  | nil =>
    have hp : s.placeCommand v = s.issue v := by
      rw [State.placeCommand, ha, if_pos rfl, ← ha]
      rfl
    rw [hp, step_of_nil (s := s.issue v) ha]
    exact sequencerTurn_busy rfl
  | cons x rest =>
    have hp : (s.placeCommand v).agenda = .sequencer :: s.agenda := by
      rw [State.placeCommand, ha, if_neg (List.cons_ne_nil x rest)]
      rfl
    rw [step_of_sequencer hp]
    exact sequencerTurn_busy rfl

/-- Settles O50: a 16-bit word is placed whole. -/
theorem placedCommandRunsNext : Obligations.PlacedCommandRunsNext := by
  intro s w hw
  rw [State.withFetchWord, Nat.mod_eq_of_lt hw]
  exact step_placeCommand s _

/-- Settles O52: the reset input is applyReset on the state with the event taken off. -/
theorem resetInputRestoresAll : Obligations.ResetInputRestoresAll :=
  fun _ _ ha => step_of_reset ha

/-- Settles O47: CMD is at address 0. -/
theorem commandWriteIssues : Obligations.CommandWriteIssues := by
  intro s v rest hb ha
  rw [step_of_host ha, State.access, State.hostWrite_idle (s := s.withAgenda rest) hb]
  rfl

/-- No register's value depends on the agenda. -/
theorem State.peek_withAgenda (s : State) (l : List Event) (a : Addr) : (s.withAgenda l).peek a = s.peek a := rfl

/-- Settles O42: a read's own two cases. -/
theorem hostReadOnlyReplies : Obligations.HostReadOnlyReplies := by
  intro s a rest ha
  rw [step_of_host ha, State.access]
  refine ⟨fun v hv => ?_, fun hn => ⟨_, rfl, ?_⟩⟩
  · rw [State.hostRead_of_some ((State.peek_withAgenda s rest a).trans hv)]
    rfl
  · rw [State.hostRead_of_none ((State.peek_withAgenda s rest a).trans hn)]
    rfl

/-! ## The run's mark (93 rows 1, 2 and 9; log entry 20) -/

theorem exec_faulted (h : exec i s = .next t) : t.faulted = (s.faulted || !s.operandsDefined i) := by
  rcases exec_next h with ⟨u, hu, rfl⟩ | ⟨e, hr, rfl⟩
  · have hkeeps : u.faulted = s.faulted := by rw [hu.frame]
    rw [State.noteUse_faulted, State.complete_faulted, hkeeps]
  · rw [State.takeError_faulted, hr.operandsDefined, Bool.not_true, Bool.or_false]

theorem sequencerTurn_faulted (h : sequencerTurn s = .next t) :
    t.faulted = (s.faulted || s.busy && !s.operandsDefined s.command) := by
  rcases sequencerTurn_cases h with ⟨hb, he⟩ | ⟨hb, rfl⟩
  · rw [exec_faulted he, hb, Bool.true_and]
  · rw [hb, Bool.false_and, Bool.or_false]

theorem State.hostRead_faulted (s : State) (a : Addr) :
    (s.hostRead a).faulted = (s.faulted || !s.busy && decide (s.peek a = none)) := by
  rcases s.hostRead_cases a with ⟨v, hp, hr⟩ | ⟨hp, hr⟩ <;> rw [hr, hp] <;> simp

theorem State.operandsDefined_withAgenda (s : State) (l : List Event) (i : Instr) :
    (s.withAgenda l).operandsDefined i = s.operandsDefined i := by
  cases i <;> rfl

/-- Settles O60, by the command's completion and by the kind of step. -/
theorem undefinedUseMarksTheRun : Obligations.UndefinedUseMarksTheRun := by
  refine ⟨fun i s t => exec_faulted, fun s t h => ?_⟩
  rcases step_cases h with ⟨ha, hturn⟩ | ⟨rest, ha, hturn⟩ | ⟨x, rest, ha, rfl⟩ | ⟨rest, ha, rfl⟩
  · rw [ha]
    exact sequencerTurn_faulted hturn
  · rw [ha, sequencerTurn_faulted hturn, State.operandsDefined_withAgenda]
    rfl
  · rw [ha]
    cases x with
    | read a => exact State.hostRead_faulted _ a
    | write a v => rw [State.access, State.hostWrite_frame]; exact (Bool.or_false _).symm
  · rw [ha]
    exact (Bool.or_false _).symm

end Sys2Proof.Machine

/-! # Proofs: which words a command leaves defined (10_state.md R38; log entries 2, 3 and 9) -/

namespace Sys2Proof.Machine

variable {s t u : State} {i : Instr}

/-! ## The bits after a command are those of what it computed -/

theorem Computed.next_eq (hu : Computed s i u) (h : exec i s = .next t) :
    t = (u.complete .none Cause.clear).noteUse (s.operandsDefined i) := by
  rw [hu.exec_eq, Host.Outcome.next.injEq] at h
  exact h.symm

theorem Computed.stDef_eq (hu : Computed s i u) (h : exec i s = .next t) : t.stDef = u.stDef := by
  rw [hu.next_eq h]
  rfl

theorem Computed.krDef_eq (hu : Computed s i u) (h : exec i s = .next t) : t.krDef = u.krDef := by
  rw [hu.next_eq h]
  rfl

/-! ## Operands that are all defined -/

theorem Quad.eq_all4_of_every {d : Quad Bool} (h : d.every = true) : d = Quad.all4 true :=
  Quad.ext_get fun i => ((Quad.every_iff d).mp h i).trans (Quad.get_all4 true i).symm

theorem Oct.eq_all8_of_every {d : Oct Bool} (h : d.every = true) : d = Oct.all8 true :=
  Oct.ext_get fun i => ((Oct.every_iff d).mp h i).trans (Oct.get_all8 true i).symm

theorem State.rangeDefined_of_full (hv : s.tblValid = true) (h : s.fullDefined = true) :
    s.rangeDefined 1 s.tblSteps = true := by
  simpa [State.fullDefined, hv] using h

theorem State.rangeDefined_of_partial (hv : s.tblValid = true)
    (hr : 1 ≤ s.fromStep ∧ s.fromStep ≤ s.toStep ∧ s.toStep ≤ s.tblSteps) (h : s.partialDefined = true) :
    s.rangeDefined s.fromStep s.toStep = true := by
  simpa [State.partialDefined, hv, (rangeOk_iff _ _ _).mpr hr] using h

theorem State.mkeyDef_of_schedule
    (hc : (1 ≤ s.cfgSteps ∧ s.cfgSteps ≤ s.maxSteps.toNat) ∧ 2 ≤ s.cfgRps ∧ s.cfgRps ≤ 4)
    (h : s.scheduleDefined = true) : s.mkeyDef = Oct.all8 true := by
  refine Oct.eq_all8_of_every ?_
  simpa [State.scheduleDefined, (configCause_clear_iff _ _ _).mpr hc] using h

/-- Each word of ST, KR and the table keeps its value and its bit, or is defined. -/
structure KeepsOrDefines (s t : State) : Prop where
  st : ∀ j, (t.st.get j = s.st.get j ∧ t.stDef.get j = s.stDef.get j) ∨ t.stDef.get j = true
  kr : ∀ j, (t.kr.get j = s.kr.get j ∧ t.krDef.get j = s.krDef.get j) ∨ t.krDef.get j = true
  sk : (t.sk = s.sk ∧ t.skDef = s.skDef) ∨ t.skDef = Oct.all8 true

namespace KeepsOrDefines

theorem refl (s : State) : KeepsOrDefines s s where
  st _ := .inl ⟨rfl, rfl⟩
  kr _ := .inl ⟨rfl, rfl⟩
  sk := .inl ⟨rfl, rfl⟩

/-- All of ST defined. -/
theorem withSt (s : State) (x : Quad Word) {d : Quad Bool} (hd : d = Quad.all4 true) : KeepsOrDefines s (s.withSt x d) :=
  { refl s with st := fun j => .inr (by rw [State.withSt_stDef, hd, Quad.get_all4]) }

/-- All of KR defined. -/
theorem withKr (s : State) (x : Oct Word) {d : Oct Bool} (hd : d = Oct.all8 true) : KeepsOrDefines s (s.withKr x d) :=
  { refl s with kr := fun j => .inr (by rw [State.withKr_krDef, hd, Oct.get_all8]) }

/-- A branch whose words are both defined is defined after a round; the other is kept. -/
theorem onBranch {b : Branch} (h : s.branchDefined b = true) (f : Word → Word → Word × Word) :
    KeepsOrDefines s (s.onBranch b f) where
  st := by
    have hround : roundDef (s.stDef.branch b) = (true, true) := by
      rw [State.branchDefined] at h
      rw [roundDef, h]
    intro j
    rw [State.onBranch, State.withSt_st, State.withSt_stDef, hround]
    cases b with
    | b0 => fin_cases j; exacts [.inr rfl, .inr rfl, .inl ⟨rfl, rfl⟩, .inl ⟨rfl, rfl⟩]
    | b1 => fin_cases j; exacts [.inl ⟨rfl, rfl⟩, .inl ⟨rfl, rfl⟩, .inr rfl, .inr rfl]
  kr _ := .inl ⟨rfl, rfl⟩
  sk := .inl ⟨rfl, rfl⟩

/-- A command whose operands are defined. -/
theorem of_computed (hu : Computed s i u) (h : s.operandsDefined i = true) : KeepsOrDefines s u := by
  cases hu with
  | nop => exact refl s
  | arx b => exact onBranch h roundA
  | arxi b => exact onBranch h roundAInv
  | lin => exact withSt s _ (by rw [Quad.eq_all4_of_every h]; rfl)
  | lini => exact withSt s _ (by rw [Quad.eq_all4_of_every h]; rfl)
  | kload => exact withKr s _ (Oct.eq_all8_of_every h)
  | kperm => exact withKr s _ (by rw [Oct.eq_all8_of_every h]; rfl)
  | ksched hc =>
    exact {
      st := fun _ => .inl ⟨rfl, rfl⟩
      kr := fun j => .inr (Oct.get_all8 true j)
      sk := .inr (State.mkeyDef_of_schedule hc h) }
  | enc hv => exact withSt s _ (State.rangeDef_true (State.rangeDefined_of_full hv h)).1
  | dec hv => exact withSt s _ (State.rangeDef_true (State.rangeDefined_of_full hv h)).2
  | encs hv hr => exact withSt s _ (State.rangeDef_true (State.rangeDefined_of_partial hv hr h)).1
  | decs hv hr => exact withSt s _ (State.rangeDef_true (State.rangeDefined_of_partial hv hr h)).2

theorem of_exec (he : exec i s = .next t) (h : s.operandsDefined i = true) : KeepsOrDefines s t := by
  rcases exec_next he with ⟨u, hu, rfl⟩ | ⟨e, _, rfl⟩
  · exact { of_computed hu h with }
  · exact { refl s with }

end KeepsOrDefines

/-- Settles O39: each word is kept or defined. -/
theorem definedOperandsGiveDefinedResults : Obligations.DefinedOperandsGiveDefinedResults := by
  intro i s t h he
  obtain ⟨hst, hkr, hsk⟩ := KeepsOrDefines.of_exec he h
  have hdefined (hd : t.skDef = Oct.all8 true) (c w : Nat) : t.skWordDef c w = true := by
    rw [State.skWordDef, hd, keyDefAt_all8, Oct.get_all8]
  refine ⟨fun j hj => ?_, fun j hj => ?_, fun c w hw => ?_, fun j hj => ?_, fun j hj => ?_, fun hne => ?_⟩
  · exact (hst j).elim (fun hk => hk.2.trans hj) id
  · exact (hkr j).elim (fun hk => hk.2.trans hj) id
  · exact hsk.elim (fun hk => by rwa [State.skWordDef, hk.2]) (hdefined · c w)
  · exact (hst j).resolve_left fun hk => hj hk.1
  · exact (hkr j).resolve_left fun hk => hj hk.1
  · exact hdefined (hsk.resolve_left fun hk => hne hk.1)

/-! ## Each unit, word by word -/

/-- 42_key_permutation.md R140. -/
theorem keyPermDef_words (d : Oct Bool) :
    (keyPermDef d).w0 = d.w6 ∧ (keyPermDef d).w1 = d.w7 ∧ (keyPermDef d).w6 = d.w4 ∧ (keyPermDef d).w7 = d.w5 ∧
    ((keyPermDef d).w2 = true ↔ d.w0 = true ∧ d.w1 = true) ∧
    ((keyPermDef d).w3 = true ↔ d.w0 = true ∧ d.w1 = true) ∧
    ((keyPermDef d).w4 = true ↔ d.w0 = true ∧ d.w1 = true ∧ d.w2 = true) ∧
    ((keyPermDef d).w5 = true ↔ d.w0 = true ∧ d.w1 = true ∧ d.w3 = true) := by
  simp only [keyPermDef, roundDef, Bool.and_eq_true, true_and]
  tauto

/-- 41_linear_layer.md R120. -/
theorem linLDef_words (d : Quad Bool) :
    ((linLDef d).w0 = true ↔ d.w0 = true ∧ d.w1 = true ∧ d.w2 = true) ∧
    ((linLDef d).w1 = true ↔ d.w0 = true ∧ d.w1 = true ∧ d.w3 = true) ∧
    (linLDef d).w2 = d.w0 ∧ (linLDef d).w3 = d.w1 := by
  simp only [linLDef, Bool.and_eq_true, and_true]
  tauto

/-- 41_linear_layer.md R121. -/
theorem linLInvDef_words (d : Quad Bool) :
    (linLInvDef d).w0 = d.w2 ∧ (linLInvDef d).w1 = d.w3 ∧
    ((linLInvDef d).w2 = true ↔ d.w0 = true ∧ d.w2 = true ∧ d.w3 = true) ∧
    ((linLInvDef d).w3 = true ↔ d.w1 = true ∧ d.w2 = true ∧ d.w3 = true) := by
  simp only [linLInvDef, Bool.and_eq_true, true_and]
  tauto

/-- 44_step_engine.md R182. -/
theorem whitenDef_get_iff (skd : Nat → Nat → Bool) (n : Nat) (d : Quad Bool) (i : Fin 4) :
    (whitenDef skd n d).get i = true ↔ d.get i = true ∧ skd (2 * n) i.val = true := by
  fin_cases i <;> exact Bool.and_eq_true_iff

/-- The whitening of a range, which depends on t = N alone (44_step_engine.md R186). -/
theorem ite_whitenDef_get_iff (skd : Nat → Nat → Bool) (n t : Nat) (d : Quad Bool) (i : Fin 4) :
    (if t = n then whitenDef skd n d else d).get i = true ↔ d.get i = true ∧ (t = n → skd (2 * n) i.val = true) := by
  by_cases ht : t = n
  · simp [ht, whitenDef_get_iff]
  · simp [ht]

/-! ## One step of the step engine (44_step_engine.md R181, R183) -/

theorem subkeyEntry_b0 (k : Nat) : subkeyEntry k .b0 = 2 * (k - 1) := Nat.mul_comm _ _

theorem subkeyEntry_b1 (k : Nat) : subkeyEntry k .b1 = 2 * (k - 1) + 1 := congrArg (· + 1) (Nat.mul_comm _ _)

/-- A range of one step that does not whiten. -/
theorem encRangeDef_one (skd : Nat → Nat → Bool) {n k : Nat} (r : Nat) (d : Quad Bool) (hk : k < n) :
    encRangeDef skd n r k k d = encStepDef skd r k d := by
  simp [encRangeDef, hk.ne]

theorem decRangeDef_one (skd : Nat → Nat → Bool) {n k : Nat} (r : Nat) (d : Quad Bool) (hk : k < n) :
    decRangeDef skd n r k k d = decStepDef skd r k d := by
  simp [decRangeDef, hk.ne]

/-- After EncStep each word needs the branches that L's formula for it takes, whole, with their entries. -/
theorem encStepDef_words (skd : Nat → Nat → Bool) {r : Nat} (k : Nat) (d : Quad Bool) (hr : 1 ≤ r) :
    let whole0 := d.w0 = true ∧ d.w1 = true ∧ ∀ w, w < 2 * r → skd (2 * (k - 1)) w = true
    let whole1 := d.w2 = true ∧ d.w3 = true ∧ ∀ w, w < 2 * r → skd (2 * (k - 1) + 1) w = true
    ((encStepDef skd r k d).w0 = true ↔ whole0 ∧ whole1) ∧ ((encStepDef skd r k d).w1 = true ↔ whole0 ∧ whole1) ∧
    ((encStepDef skd r k d).w2 = true ↔ whole0) ∧ ((encStepDef skd r k d).w3 = true ↔ whole0) := by
  obtain ⟨h00, h01⟩ := encPairDef_iff skd (subkeyEntry k .b0) r (d.branch .b0) hr
  obtain ⟨h10, h11⟩ := encPairDef_iff skd (subkeyEntry k .b1) r (d.branch .b1) hr
  rw [subkeyEntry_b0] at h00 h01
  rw [subkeyEntry_b1] at h10 h11
  intro whole0 whole1
  rw [encStepDef, subkeyEntry_b0, subkeyEntry_b1]
  exact ⟨(linLDef_words _).1.trans ((and_congr h00 (and_congr h01 h10)).trans and_self_left),
    (linLDef_words _).2.1.trans ((and_congr h00 (and_congr h01 h11)).trans and_self_left), h00, h01⟩

/-- After DecStep a word needs both words of its branch after L_inverse, and its entry but for the XOR into the branch's
other word that comes last. -/
theorem decStepDef_words (skd : Nat → Nat → Bool) {r : Nat} (k : Nat) (d : Quad Bool) (hr : 1 ≤ r) :
    let branch0 := d.w2 = true ∧ d.w3 = true
    let branch1 := d.w0 = true ∧ d.w1 = true ∧ d.w2 = true ∧ d.w3 = true
    let used := fun e skipped => ∀ w, w < 2 * r → w ≠ skipped → skd e w = true
    ((decStepDef skd r k d).w0 = true ↔ branch0 ∧ used (2 * (k - 1)) 1) ∧
    ((decStepDef skd r k d).w1 = true ↔ branch0 ∧ used (2 * (k - 1)) 0) ∧
    ((decStepDef skd r k d).w2 = true ↔ branch1 ∧ used (2 * (k - 1) + 1) 1) ∧
    ((decStepDef skd r k d).w3 = true ↔ branch1 ∧ used (2 * (k - 1) + 1) 0) := by
  obtain ⟨h00, h01⟩ := decPairDef_iff skd (subkeyEntry k .b0) r ((linLInvDef d).branch .b0) hr
  obtain ⟨h10, h11⟩ := decPairDef_iff skd (subkeyEntry k .b1) r ((linLInvDef d).branch .b1) hr
  rw [subkeyEntry_b0] at h00 h01
  rw [subkeyEntry_b1] at h10 h11
  have hbranch1 : (d.w0 && d.w2 && d.w3) = true ∧ (d.w1 && d.w3 && d.w2) = true ↔
      d.w0 = true ∧ d.w1 = true ∧ d.w2 = true ∧ d.w3 = true := by
    simp only [Bool.and_eq_true]
    tauto
  intro branch0 branch1 used
  simp only [decStepDef, subkeyEntry_b0, subkeyEntry_b1, Quad.setBranch]
  exact ⟨h00, h01, h10.trans (and_congr_left' hbranch1), h11.trans (and_congr_left' hbranch1)⟩

/-! ## The commands -/

theorem CommandError.err_ne_none (e : CommandError) : e.err ≠ .none := by
  cases e <;> exact fun h => nomatch h

/-- ARX and ARXI: both words of the branch need both; the other branch keeps its bits. -/
theorem onBranch_stDef (s : State) (b : Branch) (f : Word → Word → Word × Word) :
    (((s.onBranch b f).stDef.branch b).1 = true ↔ (s.stDef.branch b).1 = true ∧ (s.stDef.branch b).2 = true) ∧
    (((s.onBranch b f).stDef.branch b).2 = true ↔ (s.stDef.branch b).1 = true ∧ (s.stDef.branch b).2 = true) ∧
    (s.onBranch b f).stDef.branch (otherBranch b) = s.stDef.branch (otherBranch b) := by
  rw [State.onBranch, State.withSt_stDef, Quad.branch_setBranch_same, Quad.branch_setBranch_other]
  exact ⟨Bool.and_eq_true_iff, Bool.and_eq_true_iff, rfl⟩

/-- KSCHED without an error: KR is discarded, and the table is built from MK (43_key_schedule.md R161). -/
theorem ksched_krDef_skDef (h : exec .ksched s = .next t) (he : t.err = .none) :
    t.krDef = Oct.all8 true ∧ t.skDef = s.mkeyDef := by
  rcases exec_next h with ⟨u, hu, rfl⟩ | ⟨e, _, rfl⟩
  · cases hu with | ksched => exact ⟨rfl, rfl⟩
  · exact absurd he e.err_ne_none

/-- NOP, and a command that ends in an error, leave every bit. -/
theorem exec_keeps_definedness (h : exec i s = .next t) (hi : i = .nop ∨ t.err ≠ .none) :
    t.stDef = s.stDef ∧ t.krDef = s.krDef ∧ t.skDef = s.skDef ∧ t.mkeyDef = s.mkeyDef := by
  rcases exec_next h with ⟨u, hu, rfl⟩ | ⟨e, _, rfl⟩
  · obtain rfl := hi.resolve_right fun hne => hne rfl
    cases hu with | nop => exact ⟨rfl, rfl, rfl, rfl⟩
  · exact ⟨rfl, rfl, rfl, rfl⟩

/-- The bits after a range of the step commands are the range's over the bits before (44_step_engine.md R190 to R193). -/
theorem stDef_of_full (hv : s.tblValid = true) :
    (exec .enc s = .next t → t.stDef = encRangeDef s.skWordDef s.tblSteps s.tblRps 1 s.tblSteps s.stDef) ∧
    (exec .dec s = .next t → t.stDef = decRangeDef s.skWordDef s.tblSteps s.tblRps 1 s.tblSteps s.stDef) :=
  ⟨(Computed.enc hv).stDef_eq, (Computed.dec hv).stDef_eq⟩

theorem stDef_of_partial (hv : s.tblValid = true)
    (hr : 1 ≤ s.fromStep ∧ s.fromStep ≤ s.toStep ∧ s.toStep ≤ s.tblSteps) :
    (exec .encs s = .next t →
      t.stDef = encRangeDef s.skWordDef s.tblSteps s.tblRps s.fromStep s.toStep s.stDef) ∧
    (exec .decs s = .next t →
      t.stDef = decRangeDef s.skWordDef s.tblSteps s.tblRps s.fromStep s.toStep s.stDef) :=
  ⟨(Computed.encs hv hr).stDef_eq, (Computed.decs hv hr).stDef_eq⟩

/-- Settles O59, command by command. -/
theorem definednessIsPerWord : Obligations.DefinednessIsPerWord := by
  have oneStep {s t : State} {k : Nat} (hv : s.tblValid = true) (hf : s.fromStep = k) (ht : s.toStep = k) (hk : 1 ≤ k)
      (hkn : k < s.tblSteps) :
      (exec .encs s = .next t → t.stDef = encStepDef s.skWordDef s.tblRps k s.stDef) ∧
      (exec .decs s = .next t → t.stDef = decStepDef s.skWordDef s.tblRps k s.stDef) := by
    rw [← encRangeDef_one _ _ _ hkn, ← decRangeDef_one _ _ _ hkn]
    simpa only [hf, ht] using stDef_of_partial (t := t) hv (by omega)
  refine ⟨?arx, ?lin, ?lini, ?kperm, ?ksched, ?encs, ?decs, fun s t => stDef_of_full, ?ranges, ?whiten, ?kload, ?kept⟩
  case arx =>
    rintro b i s t (rfl | rfl) h
    · rw [(Computed.arx b).stDef_eq h]
      exact onBranch_stDef s b roundA
    · rw [(Computed.arxi b).stDef_eq h]
      exact onBranch_stDef s b roundAInv
  case lin =>
    intro s t h
    rw [Computed.lin.stDef_eq h]
    exact linLDef_words s.stDef
  case lini =>
    intro s t h
    rw [Computed.lini.stDef_eq h]
    exact linLInvDef_words s.stDef
  case kperm =>
    intro s t h
    rw [Computed.kperm.krDef_eq h]
    exact keyPermDef_words s.krDef
  case ksched =>
    intro s t h he
    obtain ⟨hkr, hsk⟩ := ksched_krDef_skDef h he
    refine ⟨fun j => by rw [hkr, Oct.get_all8], fun w => ?_, fun c => keyPermDef_words (keyDefAt t.skDef c)⟩
    rw [State.skWordDef_get, hsk, keyDefAt]
  case encs =>
    intro s t k hv hf ht hk hkn hr h
    rw [(oneStep hv hf ht hk hkn).1 h]
    exact encStepDef_words s.skWordDef k s.stDef hr
  case decs =>
    intro s t k hv hf ht hk hkn hr h
    rw [(oneStep hv hf ht hk hkn).2 h]
    exact decStepDef_words s.skWordDef k s.stDef hr
  case ranges => exact fun s t hv h1 h2 h3 => stDef_of_partial hv ⟨h1, h2, h3⟩
  case whiten =>
    refine fun skd n r f u d => ⟨ite_whitenDef_get_iff skd n u _, _, ite_whitenDef_get_iff skd n u d, ?_⟩
    rw [List.foldl_reverse, decRangeDef]
  case kload => exact fun s t h => Computed.kload.krDef_eq h
  case kept => exact fun i s t => exec_keeps_definedness

end Sys2Proof.Machine

/-! # Proofs: host accesses, address by address (20_memory.md R51 to R57, R62) -/

namespace Sys2Proof.Machine

/-! ## The map of R52, row by row -/

/-- The addresses of each register, as numbers (20_memory.md R52, R53). -/
inductive Located (a : Addr) : Reg → Prop
  | cmd (h : a.toNat = 0x000) : Located a .cmd
  | status (h : a.toNat = 0x001) : Located a .status
  | cfg (h : a.toNat = 0x002) : Located a .cfg
  | range (h : a.toNat = 0x003) : Located a .range
  | ridx (h : a.toNat = 0x004) : Located a .ridx
  | tblCfg (h : a.toNat = 0x005) : Located a .tblCfg
  | param (h : a.toNat = 0x006) : Located a .param
  | mkey (i : Fin 8) (h : a.toNat = 0x008 + i.val) : Located a (.mkey i)
  | st (i : Fin 4) (h : a.toNat = 0x010 + i.val) : Located a (.st i)
  | kr (i : Fin 8) (h : a.toNat = 0x018 + i.val) : Located a (.kr i)
  | sk (c w : Nat) (hc : c ≤ 510) (hw : w ≤ 7) (h : a.toNat = 0x100 + 8 * c + w) : Located a (.sk c w)
  | reserved (h : a.toNat = 0x007 ∨ (0x014 ≤ a.toNat ∧ a.toNat ≤ 0x017) ∨ (0x020 ≤ a.toNat ∧ a.toNat ≤ 0x0FF) ∨
      0x10F8 ≤ a.toNat) : Located a .reserved

/-- The decoding of an address is a row of the map. -/
theorem located_locate (a : Addr) : Located a (locate a) := by
  have row {c : Prop} [Decidable c] {p q : Reg} (hp : c → Located a p) (hq : ¬c → Located a q) :
      Located a (if c then p else q) := iteInduction hp hq
  have hentry (n : Nat) : n >>> 3 = n / 8 := Nat.shiftRight_eq_div_pow n 3
  have hword (n : Nat) : n &&& 7 = n % 8 := Nat.and_two_pow_sub_one_eq_mod n 3
  simp only [locate, hentry, hword]
  refine row .cmd fun _ => row .status fun _ => row .cfg fun _ => row .range fun _ => row .ridx fun _ =>
    row .tblCfg fun _ => row .param fun _ => row (fun _ => .reserved ?_) fun _ => row (fun _ => .mkey _ ?mkey) fun _ =>
    row (fun _ => .st _ ?st) fun _ => row (fun _ => .reserved ?_) fun _ => row (fun _ => .kr _ ?kr) fun _ =>
    row (fun _ => .reserved ?_) fun _ => row (fun _ => .sk _ _ ?_ ?_ ?_) fun _ => .reserved ?_
  case mkey | st | kr => rw [Fin.val_ofNat]; omega
  all_goals omega

/-- Only the reserved addresses share a row. -/
theorem Located.unique {a b : Addr} {r : Reg} (ha : Located a r) (hb : Located b r) (hr : r ≠ .reserved) : a = b := by
  apply BitVec.eq_of_toNat_eq
  cases ha with
  | reserved => exact absurd rfl hr
  | cmd | status | cfg | range | ridx | tblCfg | param | mkey | st | kr | sk => cases hb; omega

/-! ## What a write leaves to be read -/

section

variable {s : State} {r : Reg} {a : Addr}

theorem State.store_busy (hr : r ≠ .cmd) (v : Word) : (s.store r v).busy = s.busy := by
  cases r with
  | cmd => exact absurd rfl hr
  | status | cfg | range | ridx | tblCfg | param | mkey | st | kr | sk | reserved => rfl

/-- A write to a register but CMD changes the reading of no other. -/
theorem State.peekIdle_store_other {q : Reg} (hr : r ≠ .cmd) (hq : q ≠ r) (v : Word) :
    (s.store r v).peekIdle q = s.peekIdle q := by
  cases r with
  | cmd => exact absurd rfl hr
  | status | tblCfg | param | kr | sk | reserved => rfl
  | cfg => cases q with | cfg => exact absurd rfl hq | _ => rfl
  | range => cases q with | range => exact absurd rfl hq | _ => rfl
  | ridx => cases q with | ridx => exact absurd rfl hq | _ => rfl
  | mkey i =>
    cases q with
    | mkey j =>
      have hij : i ≠ j := fun h => hq (h ▸ rfl)
      simp only [State.peekIdle, State.store, Oct.get_set_other _ _ hij]
    | _ => rfl
  | st i =>
    cases q with
    | st j =>
      have hij : i ≠ j := fun h => hq (h ▸ rfl)
      simp only [State.peekIdle, State.store, Quad.get_set_other _ _ hij]
    | _ => rfl

/-- A word written to MK can be read: the write defines it. -/
theorem State.peekIdle_store_mkey (i : Fin 8) (v : Word) : (s.store (.mkey i) v).peekIdle (.mkey i) = some v := by
  simp [State.peekIdle, State.store, Oct.get_set_same]

/-- A word written to ST can be read: the write defines it. -/
theorem State.peekIdle_store_st (i : Fin 4) (v : Word) : (s.store (.st i) v).peekIdle (.st i) = some v := by
  simp [State.peekIdle, State.store, Quad.get_set_same]

/-- While idle the block stays idle after a write to any register but CMD. -/
theorem State.peek_hostWrite (hb : s.busy = false) (ha : locate a ≠ .cmd) (v : Word) (b : Addr) :
    (s.hostWrite a v).peek b = (s.store (locate a) v).peekIdle (locate b) := by
  rw [State.hostWrite_idle hb, State.peek_idle ((State.store_busy ha v).trans hb)]

/-- R55's own case: a write while idle changes the reading of no other address. -/
theorem State.peek_hostWrite_other (hb : s.busy = false) (ha : locate a ≠ .cmd) (v : Word) {b : Addr} (hne : b ≠ a) :
    (s.hostWrite a v).peek b = s.peek b := by
  rw [State.peek_hostWrite hb ha, State.peek_idle hb]
  by_cases hres : locate a = .reserved
  · rw [hres]
    rfl
  · have hother : locate b ≠ locate a := fun h => hne (Located.unique (h ▸ located_locate b) (located_locate a) hres)
    exact State.peekIdle_store_other ha hother v

/-- A write while idle is read back at a read/write register (20_memory.md R52, R55), and not seen elsewhere. -/
theorem State.peek_hostWrite_same (hb : s.busy = false) (ha : locate a ≠ .cmd) (v : Word) :
    (s.hostWrite a v).peek a =
      (if a = 0x002 then some (v &&& 0x07FF)
        else if (0x003 ≤ a.toNat ∧ a.toNat ≤ 0x004) ∨ (0x008 ≤ a.toNat ∧ a.toNat ≤ 0x013) then some v
        else s.peek a) := by
  have hcfg : a = 0x002 ↔ a.toNat = 0x002 := BitVec.toNat_inj.symm
  simp only [State.peek_hostWrite hb ha, State.peek_idle hb, hcfg]
  have hrow := located_locate a
  generalize locate a = r at ha hrow
  cases hrow with
  | cmd => exact absurd rfl ha
  | cfg h => rw [if_pos h]; rfl
  | range h | ridx h => rw [if_neg (by omega), if_pos (by omega)]; rfl
  | mkey i h => rw [if_neg (by omega), if_pos (by omega), State.peekIdle_store_mkey]
  | st i h => rw [if_neg (by omega), if_pos (by omega), State.peekIdle_store_st]
  | status h | tblCfg h | param h | kr i h | sk c w hc hw h | reserved h =>
    rw [if_neg (by omega), if_neg (by omega)]
    rfl

end

/-- Settles O40: a write is stored in one row of the map, and no other row reads it. -/
theorem hostWriteThenRead : Obligations.HostWriteThenRead := by
  refine ⟨fun s a v rest => step_of_host, fun s a v hb ha => ?_⟩
  have hcmd : locate a ≠ .cmd := fun h => ha ((h ▸ located_locate a).unique (.cmd rfl) (by simp))
  exact ⟨fun b => State.peek_hostWrite_other hb hcmd v, State.peek_hostWrite_same hb hcmd v⟩

/-- Settles O41, by the row of the map that holds the address. -/
theorem reservedAndReadOnlyAccesses : Obligations.ReservedAndReadOnlyAccesses := by
  intro s a v
  rw [State.hostWrite, State.peek]
  have hrow := located_locate a
  generalize locate a = r at hrow
  refine ⟨fun ha => ?_, fun ha => ?_⟩
  · cases hrow with
    | cmd h | cfg h | range h | ridx h | mkey i h | st i h => omega
    | status | tblCfg | param | kr | sk | reserved => exact ite_self s
  · cases hrow with
    | cmd | reserved => exact ite_self _
    | status h | cfg h | range h | ridx h | tblCfg h | param h | mkey i h | st i h | kr i h | sk c w hc hw h => omega

theorem State.status_getLsbD_zero (s : State) : s.status.getLsbD 0 = s.busy := by
  exact (BitVec.getLsbD_append (y := BitVec.ofBool s.busy)).trans (by simp)

/-- Settles O48, by the row of the map that holds the address. -/
theorem busyAccesses : Obligations.BusyAccesses := by
  intro s a hb
  refine ⟨State.hostWrite_busy hb a, s.status_getLsbD_zero.trans hb, ?_⟩
  rw [State.peek, if_pos hb]
  have hrow := located_locate a
  generalize locate a = r at hrow
  cases hrow with
  | status h => rw [if_pos h]; rfl
  | param h => rw [if_neg (by omega), if_pos h]; rfl
  | cmd h | reserved h => rw [if_neg (by omega), if_neg (by omega), if_pos (by omega)]; rfl
  | cfg h | range h | ridx h | tblCfg h | mkey i h | st i h | kr i h | sk c w hc hw h =>
    rw [if_neg (by omega), if_neg (by omega), if_neg (by omega)]
    rfl

end Sys2Proof.Machine

/-! # Proofs: the agenda runs out (20_memory.md R62; 70_reset_and_hazards.md R290; log entry 10) -/

namespace Sys2Proof.Machine

variable {s : State}

/-- The sequencer's turn leaves no command in flight, and the agenda as it was. -/
theorem sequencerTurn_completes (s : State) :
    ∃ t, sequencerTurn s = .next t ∧ t.agenda = s.agenda ∧ t.busy = false := by
  cases hb : s.busy with
  | true =>
    obtain ⟨t, he, hidle⟩ := everyCommandCompletes s.command s
    exact ⟨t, (sequencerTurn_busy hb).trans he, by rw [exec_frame he], hidle⟩
  | false => exact ⟨s, sequencerTurn_idle hb, rfl, hb⟩

theorem State.access_agenda (s : State) : (x : HostAccess) → (s.access x).agenda = s.agenda
  | .read a => by rw [State.access, State.hostRead_frame]
  | .write a v => by rw [State.access, State.hostWrite_frame]

/-- Every step answers a next state, with the oldest event taken off. -/
theorem step_takes_event {x : Event} {rest : List Event} (h : s.agenda = x :: rest) :
    ∃ t, step s = .next t ∧ t.agenda = rest := by
  cases x with
  | sequencer =>
    obtain ⟨t, ht, hagenda, _⟩ := sequencerTurn_completes (s.withAgenda rest)
    exact ⟨t, (step_of_sequencer h).trans ht, hagenda⟩
  | host x => exact ⟨_, step_of_host h, State.access_agenda _ x⟩
  | reset => exact ⟨_, step_of_reset h, rfl⟩

/-- A run's first step, on any machine. -/
theorem run_succ {M : Host.Core} {s t : M.State} (h : M.step s = .next t) (k : Nat) : M.run (k + 1) s = M.run k t := by
  rw [Host.Core.run, h]

/-- Settles O57, by induction on the agenda. -/
theorem agendaRunsOutIdle : Obligations.AgendaRunsOutIdle := by
  intro s
  induction hl : s.agenda generalizing s with
  | nil =>
    obtain ⟨t, ht, hagenda, hidle⟩ := sequencerTurn_completes s
    exact ⟨t, run_succ ((step_of_nil hl).trans ht) 0, hagenda.trans hl, hidle⟩
  | cons x rest ih =>
    obtain ⟨t, ht, hrest⟩ := step_takes_event hl
    obtain ⟨u, hrun, hu⟩ := ih t hrest
    exact ⟨u, (run_succ ht _).trans hrun, hu⟩

end Sys2Proof.Machine

/-! # Proofs: the command words and the operand fields (30_encoding.md) -/

namespace Sys2Proof

variable {v : Word}

/-! ## The fields of a command word as numbers (R80) -/

theorem toNat_opField (v : Word) : (opField v).toNat = v.toNat % 16 := BitVec.extractLsb'_toNat 0 4 v

theorem opField_eq_iff {op : BitVec 4} : opField v = op ↔ v.toNat % 16 = op.toNat := by
  rw [← BitVec.toNat_inj, toNat_opField]

theorem toNat_zField (v : Word) : (zField v).toNat = v.toNat / 32 := by
  rw [zField, BitVec.extractLsb'_toNat, Nat.shiftRight_eq_div_pow]
  have hv := v.isLt
  omega

theorem zField_eq_zero_iff : zField v = 0 ↔ v.toNat / 32 = 0 := by
  rw [← BitVec.toNat_inj, toNat_zField, BitVec.ofNat_eq_ofNat, BitVec.toNat_ofNat, Nat.zero_mod]

theorem bField_eq_b1_iff : bField v = .b1 ↔ v.toNat / 16 % 2 = 1 := by
  have hbit : v.getLsbD 4 = decide (v.toNat / 16 % 2 = 1) := Nat.testBit_eq_decide_div_mod_eq
  rw [bField, hbit]
  by_cases h : v.toNat / 16 % 2 = 1 <;> simp [h]

/-! ## The reserved words (R86) -/

/-- The three reasons of R86 for a word to be reserved. -/
theorem reservedWord_iff : reservedWord v = true ↔
    0xC ≤ v.toNat % 16 ∨ v.toNat / 32 ≠ 0 ∨ (v.toNat / 16 % 2 = 1 ∧ v.toNat % 16 ≠ 1 ∧ v.toNat % 16 ≠ 2) := by
  simp only [reservedWord, reservedOpcode, nonzeroZ, strayBranchBit, Bool.or_eq_true, Bool.and_eq_true,
    decide_eq_true_eq, or_assoc, and_assoc]

theorem plainOpcode_reserved : ∀ op : BitVec 4, 0xC ≤ op.toNat → plainOpcode op = none := by decide

/-- Z, a stray B and a reserved OP are each rejected, in the order in which the decoder looks at the fields. -/
theorem decode_reservedWord (h : reservedWord v = true) : decode v = .illegal v := by
  rw [reservedWord_iff] at h
  rw [decode]
  by_cases hz : v.toNat / 32 = 0
  · have hnotArx : opField v ≠ 0x1 := mt opField_eq_iff.mp (show v.toNat % 16 ≠ 1 by omega)
    have hnotArxi : opField v ≠ 0x2 := mt opField_eq_iff.mp (show v.toNat % 16 ≠ 2 by omega)
    rw [if_neg (not_not_intro (zField_eq_zero_iff.mpr hz)), if_neg hnotArx, if_neg hnotArxi]
    by_cases hb : v.toNat / 16 % 2 = 1
    · rw [if_pos (bField_eq_b1_iff.mpr hb)]
    · have hreserved : 0xC ≤ (opField v).toNat := by rw [toNat_opField]; omega
      rw [if_neg (mt bField_eq_b1_iff.mp hb), plainOpcode_reserved _ hreserved, Option.getD_none]
  · rw [if_pos (mt zField_eq_zero_iff.mp hz)]

/-! ## The 14 commands (R81) -/

/-- The rows of the opcode map that name a command, ARX and ARXI once for each branch. -/
def commands : List Instr :=
  [.nop, .arx .b0, .arx .b1, .arxi .b0, .arxi .b1, .lin, .lini, .kload, .kperm, .ksched, .enc, .dec, .encs, .decs]

theorem mem_commands_or_illegal (i : Instr) : i ∈ commands ∨ ∃ w, i = .illegal w := by
  cases i with
  | illegal w => exact .inr ⟨w, rfl⟩
  | arx b | arxi b => cases b <;> exact .inl (by decide)
  | _ => exact .inl (by decide)

theorem decode_encode_command : ∀ i ∈ commands, decode (encode i) = i := by decide

theorem wellFormed_command : ∀ i ∈ commands, i.wellFormed = true := by decide

/-- A word that is not reserved is a command's: it is below 32, and 14 of those numbers are not reserved. -/
theorem mem_encode_commands (h : reservedWord v ≠ true) : v ∈ commands.map encode := by
  have hsmall : v.toNat < 32 := by
    rw [ne_eq, reservedWord_iff] at h
    omega
  have hfinite : ∀ n < 32, reservedWord (BitVec.ofNat 16 n) ≠ true → BitVec.ofNat 16 n ∈ commands.map encode := by
    decide
  have hmem := hfinite v.toNat hsmall
  rw [BitVec.ofNat_toNat, BitVec.setWidth_eq] at hmem
  exact hmem h

/-- Settles O1: the 14 commands one by one, and the reserved words by R86. -/
theorem decodeOfEncode : Obligations.DecodeOfEncode := by
  intro i hwf
  obtain hmem | ⟨w, rfl⟩ := mem_commands_or_illegal i
  · exact decode_encode_command i hmem
  · exact decode_reservedWord hwf

/-- Settles O2: a reserved word stands for itself, and every other word is a command's. -/
theorem encodeOfDecode : Obligations.EncodeOfDecode := by
  intro v
  by_cases hres : reservedWord v = true
  · rw [decode_reservedWord hres]
    exact ⟨rfl, hres⟩
  · obtain ⟨i, hmem, rfl⟩ := List.mem_map.mp (mem_encode_commands hres)
    rw [decode_encode_command i hmem]
    exact ⟨rfl, wellFormed_command i hmem⟩

theorem illegal_not_mem_commands (w : Word) : .illegal w ∉ commands := by simp [commands]

/-- R85: a word is rejected exactly when it is no command's. -/
theorem decode_eq_illegal_iff : decode v = .illegal v ↔ v ∉ commands.map encode := by
  constructor
  · intro hill hmem
    obtain ⟨i, hi, rfl⟩ := List.mem_map.mp hmem
    rw [decode_encode_command i hi] at hill
    exact illegal_not_mem_commands _ (hill ▸ hi)
  · intro hmem
    exact decode_reservedWord (not_imp_comm.mp mem_encode_commands hmem)

/-- Settles O3: the 14 words listed are the commands' encodings. -/
theorem fourteenWordsAreCommands : Obligations.FourteenWordsAreCommands := fun _ => decode_eq_illegal_iff

/-- Settles O4: the listed words are the commands' encodings, and a reserved OP, a stray B and a nonzero Z. -/
theorem opcodeMapWords : Obligations.OpcodeMapWords :=
  ⟨decodeOfEncode .nop rfl, decodeOfEncode (.arx .b0) rfl, decodeOfEncode (.arx .b1) rfl,
    decodeOfEncode (.arxi .b0) rfl, decodeOfEncode (.arxi .b1) rfl, decodeOfEncode .lin rfl,
    decodeOfEncode .lini rfl, decodeOfEncode .kload rfl, decodeOfEncode .kperm rfl, decodeOfEncode .ksched rfl,
    decodeOfEncode .enc rfl, decodeOfEncode .dec rfl, decodeOfEncode .encs rfl, decodeOfEncode .decs rfl,
    decode_reservedWord (by decide), decode_reservedWord (by decide), decode_reservedWord (by decide)⟩

end Sys2Proof

/-! ## The operand fields (R84) -/

namespace Sys2Proof.Machine

theorem stepsField_eq (v : Word) : stepsField v = v.toNat % 256 := BitVec.extractLsb'_toNat 0 8 v

theorem rpsField_eq (v : Word) : rpsField v = v.toNat / 256 % 8 := by
  rw [rpsField, BitVec.extractLsb'_toNat, Nat.shiftRight_eq_div_pow]

theorem State.fromStep_eq (s : State) : s.fromStep = s.range.toNat % 256 := BitVec.extractLsb'_toNat 0 8 s.range

theorem State.toStep_eq (s : State) : s.toStep = s.range.toNat / 256 := by
  rw [State.toStep, BitVec.extractLsb'_toNat, Nat.shiftRight_eq_div_pow]
  have hrange := s.range.isLt
  omega

/-- Settles O5, field by field. -/
theorem operandFieldsAreTheNamedBits : Obligations.OperandFieldsAreTheNamedBits := fun s =>
  ⟨s.fromStep_eq, s.toStep_eq, rfl, stepsField_eq s.cfg, rpsField_eq s.cfg, stepsField_eq s.tblCfg,
    rpsField_eq s.tblCfg⟩

end Sys2Proof.Machine

/-! # Proofs: the round function and the commands that apply a unit to ST (40_round_function.md) -/

namespace Sys2Proof

/-- R86: a word with a nonzero Z field is illegal, whatever its OP and B. -/
theorem decode_of_zField_ne_zero {v : Word} (hz : zField v ≠ 0) : decode v = .illegal v := if_pos hz

end Sys2Proof

namespace Sys2Proof.Machine

variable {s t u : State} {i j : Instr} {b : Branch} {f g : Word → Word → Word × Word}

/-! ## A and A_inverse (R100 to R102) -/

theorem rotl16_rotr16 (x : Word) {n : Nat} (h : n ≤ 16) : rotl16 (rotr16 x n) n = x :=
  rotl16_rotl16_cancel x (by omega)

/-- R102's steps: the xor gives the rotated r back, and the difference the rotated l. -/
theorem roundAInv_roundA (l r : Word) : roundAInv (roundA l r).1 (roundA l r).2 = (l, r) := by
  simp only [roundA, roundAInv]
  rw [BitVec.xor_assoc, BitVec.xor_self, BitVec.xor_zero, rotr16_rotl16 r (by omega), BitVec.add_sub_cancel,
    rotl16_rotr16 l (by omega)]

/-- The same steps backwards: the sum gives l back, and the xor then r. -/
theorem roundA_roundAInv (l r : Word) : roundA (roundAInv l r).1 (roundAInv l r).2 = (l, r) := by
  simp only [roundA, roundAInv]
  rw [rotr16_rotl16 _ (by omega), BitVec.sub_add_cancel, rotl16_rotr16 _ (by omega), BitVec.xor_assoc,
    BitVec.xor_self, BitVec.xor_zero]

/-- Settles O7. -/
theorem roundFunctionInverseLaw : Obligations.RoundFunctionInverseLaw := fun l r =>
  ⟨roundAInv_roundA l r, roundA_roundAInv l r⟩

/-! ## L and L_inverse (41_linear_layer.md R120 to R122) -/

/-- Two masks XORed in twice are gone: the way L and L_inverse undo each other. -/
theorem xor_masks_twice (x m n : Word) : x ^^^ m ^^^ n ^^^ m ^^^ n = x := by
  rw [BitVec.xor_assoc x m n, BitVec.xor_assoc, BitVec.xor_assoc, BitVec.xor_self, BitVec.xor_zero]

theorem linLInv_linL (x : Quad Word) : linLInv (linL x) = x := by
  simp only [linL, linLInv, xor_masks_twice]

theorem linL_linLInv (x : Quad Word) : linL (linLInv x) = x := by
  simp only [linL, linLInv, xor_masks_twice]

/-! ## One branch of ST replaced (R104, R105) -/

theorem Quad.setBranch_setBranch {α : Type} (q : Quad α) (b : Branch) (p p' : α × α) :
    (q.setBranch b p).setBranch b p' = q.setBranch b p' := by
  cases b <;> rfl

theorem Quad.setBranch_branch {α : Type} (q : Quad α) (b : Branch) : q.setBranch b (q.branch b) = q := by
  cases b <;> rfl

/-- A function of a branch is undone by its inverse on the same branch. -/
theorem State.onBranch_st_undo (hinv : ∀ l r, g (f l r).1 (f l r).2 = (l, r)) (ht : t.st = (s.onBranch b f).st) :
    (t.onBranch b g).st = s.st := by
  rw [State.onBranch, State.withSt_st, ht, State.onBranch, State.withSt_st, Quad.branch_setBranch_same,
    Quad.setBranch_setBranch, hinv]
  exact Quad.setBranch_branch s.st b

/-- What ARX and ARXI have in common: branch b is replaced, STATUS is cleared, and the rest stays. -/
theorem exec_onBranch (hu : Computed s i (s.onBranch b f)) : ∃ t, exec i s = .next t ∧
    t.st.branch b = f (s.st.branch b).1 (s.st.branch b).2 ∧
    t.st.branch (otherBranch b) = s.st.branch (otherBranch b) ∧
    t.stDef.branch (otherBranch b) = s.stDef.branch (otherBranch b) ∧
    t = { s with
      st := t.st, stDef := t.stDef, faulted := t.faulted, busy := false, err := .none,
      cause := ⟨false, false, false, false⟩ } :=
  ⟨_, hu.exec_eq, Quad.branch_setBranch_same _ b _, Quad.branch_setBranch_other _ b _,
    Quad.branch_setBranch_other _ b _, rfl⟩

/-- Settles O19: the words of ARX, Z, and A on the branch. -/
theorem arxAppliesTheRoundFunction : Obligations.ArxAppliesTheRoundFunction :=
  ⟨decodeOfEncode (.arx .b0) rfl, decodeOfEncode (.arx .b1) rfl, fun _ _ hz => decode_of_zField_ne_zero hz,
    fun b _ => exec_onBranch (.arx b)⟩

/-- Settles O20: the words of ARXI, Z, and A_inverse on the branch. -/
theorem arxiAppliesTheInverse : Obligations.ArxiAppliesTheInverse :=
  ⟨decodeOfEncode (.arxi .b0) rfl, decodeOfEncode (.arxi .b1) rfl, fun _ _ hz => decode_of_zField_ne_zero hz,
    fun b _ => exec_onBranch (.arxi b)⟩

/-! ## A command and its inverse command -/

/-- A command computes u; if from every state with u's ST the next command computes the ST before, the two restore it. -/
theorem Computed.exec_undone (hu : Computed s i u)
    (hundo : ∀ t : State, t.st = u.st → ∃ v, Computed t j v ∧ v.st = s.st) :
    ∃ t w, exec i s = .next t ∧ exec j t = .next w ∧ w.st = s.st := by
  obtain ⟨v, hv, hst⟩ := hundo ((u.complete .none Cause.clear).noteUse (s.operandsDefined i)) rfl
  exact ⟨_, _, hu.exec_eq, hv.exec_eq, hst⟩

/-- Settles O23: each of the four pairs of commands by its unit's inverse law. -/
theorem inverseCommandsRestoreTheState : Obligations.InverseCommandsRestoreTheState := by
  rintro i j s (⟨b, rfl, rfl⟩ | ⟨b, rfl, rfl⟩ | ⟨rfl, rfl⟩ | ⟨rfl, rfl⟩)
  · exact (Computed.arx b).exec_undone fun t ht => ⟨_, .arxi b, State.onBranch_st_undo roundAInv_roundA ht⟩
  · exact (Computed.arxi b).exec_undone fun t ht => ⟨_, .arx b, State.onBranch_st_undo roundA_roundAInv ht⟩
  · exact Computed.lin.exec_undone fun t ht => ⟨_, .lini, by
      rw [State.withSt_st, ht, State.withSt_st, linLInv_linL]⟩
  · exact Computed.lini.exec_undone fun t ht => ⟨_, .lin, by
      rw [State.withSt_st, ht, State.withSt_st, linL_linLInv]⟩

end Sys2Proof.Machine

/-! # Proofs: the linear layer and its commands (41_linear_layer.md) -/

namespace Sys2Proof

/-- R85, R86: an OP other than those of ARX and ARXI is a command's in one word at most, OP with B and Z zero. -/
theorem decode_of_ne_opField {v : Word} (harx : opField v ≠ 0x1) (harxi : opField v ≠ 0x2)
    (hv : v ≠ (opField v).setWidth 16) : decode v = .illegal v := by
  have hnotArx : v.toNat % 16 ≠ 1 := mt (opField_eq_iff (op := 0x1)).mpr harx
  have hnotArxi : v.toNat % 16 ≠ 2 := mt (opField_eq_iff (op := 0x2)).mpr harxi
  have hhigh : v.toNat ≠ v.toNat % 16 := by
    intro hnat
    refine hv (BitVec.eq_of_toNat_eq ?_)
    rw [BitVec.toNat_setWidth, toNat_opField]
    omega
  exact decode_reservedWord (reservedWord_iff.mpr (by omega))

end Sys2Proof

namespace Sys2Proof.Machine

variable {s : State} {i : Instr}

/-- Settles O8. -/
theorem linearLayerInverseLaw : Obligations.LinearLayerInverseLaw := fun x => ⟨linLInv_linL x, linL_linLInv x⟩

/-! ## Linearity (R123) -/

/-- Bit i of a rotated XOR is the XOR of the two words' bits at one and the same place. -/
theorem rotl16_xor (x y : Word) {n : Nat} (hn : n ≤ 16) : rotl16 (x ^^^ y) n = rotl16 x n ^^^ rotl16 y n := by
  refine BitVec.eq_of_getLsbD_eq fun i hi => ?_
  rw [BitVec.getLsbD_xor]
  simp only [getLsbD_rotl16 _ hn hi]
  split <;> exact BitVec.getLsbD_xor

/-- The word that L and L_inverse compute from two words and the rotated sum of two words is linear in the four. -/
theorem xor_mask_xor (a b c d e f g h : Word) :
    (a ^^^ b) ^^^ (c ^^^ d) ^^^ rotl16 ((e ^^^ f) ^^^ (g ^^^ h)) 8 =
      (a ^^^ c ^^^ rotl16 (e ^^^ g) 8) ^^^ (b ^^^ d ^^^ rotl16 (f ^^^ h) 8) := by
  have hsum : (e ^^^ f) ^^^ (g ^^^ h) = (e ^^^ g) ^^^ (f ^^^ h) := by ac_rfl
  rw [hsum, rotl16_xor _ _ (by omega)]
  ac_rfl

/-- Settles O9: word by word, and the spec's four values by computation. -/
theorem linearLayerIsLinear : Obligations.LinearLayerIsLinear := by
  refine ⟨fun x y => ⟨?_, ?_⟩, by decide, by decide, by decide, by decide⟩
  · simp only [linL, xor_mask_xor]
  · simp only [linLInv, xor_mask_xor]

/-! ## LIN and LINI (R124, R125) -/

/-- What LIN and LINI have in common: ST is replaced, STATUS is cleared, and the rest stays. -/
theorem exec_withSt {q : Quad Word} {d : Quad Bool} (hu : Computed s i (s.withSt q d)) :
    ∃ t, exec i s = .next t ∧ t.st = q ∧
      t = { s with
        st := t.st, stDef := t.stDef, faulted := t.faulted, busy := false, err := .none,
        cause := ⟨false, false, false, false⟩ } :=
  ⟨_, hu.exec_eq, rfl, rfl⟩

/-- Settles O21: the word of LIN, and L's four words. -/
theorem linAppliesTheLinearLayer : Obligations.LinAppliesTheLinearLayer := by
  refine ⟨decodeOfEncode .lin rfl, fun v hop hv => ?_, fun s => ?_⟩
  · exact decode_of_ne_opField (by rw [hop]; decide) (by rw [hop]; decide) (by rwa [hop])
  · obtain ⟨t, ht, hst, hframe⟩ := exec_withSt (s := s) .lin
    refine ⟨t, ht, ?_, ?_, ?_, ?_, hframe⟩ <;> rw [hst, linL]

/-- Settles O22: the word of LINI, and L_inverse's four words. -/
theorem liniAppliesTheInverse : Obligations.LiniAppliesTheInverse := by
  refine ⟨decodeOfEncode .lini rfl, fun v hop hv => ?_, fun s => ?_⟩
  · exact decode_of_ne_opField (by rw [hop]; decide) (by rw [hop]; decide) (by rwa [hop])
  · obtain ⟨t, ht, hst, hframe⟩ := exec_withSt (s := s) .lini
    refine ⟨t, ht, ?_, ?_, ?_, ?_, hframe⟩ <;> rw [hst, linLInv]

end Sys2Proof.Machine

/-! # Proofs: the key permutation and its commands (42_key_permutation.md) -/

namespace Sys2Proof.Machine

/-! ## The round index (R141) -/

theorem keyPerm_w1 (k : Oct Word) (c : Nat) : (keyPerm k c).w1 = k.w7 + BitVec.ofNat 16 c := rfl

/-- The round index enters KP in word 1 alone. -/
theorem keyPerm_get_of_ne_one (k : Oct Word) (c d : Nat) :
    ∀ {i : Fin 8}, i ≠ 1 → (keyPerm k c).get i = (keyPerm k d).get i
  | 1, hi => absurd rfl hi
  | 0, _ | 2, _ | 3, _ | 4, _ | 5, _ | 6, _ | 7, _ => rfl

/-- KP uses the round index as a word. -/
theorem keyPerm_congr (k : Oct Word) {c d : Nat} (h : BitVec.ofNat 16 c = BitVec.ofNat 16 d) :
    keyPerm k c = keyPerm k d := by
  rw [keyPerm, keyPerm, h]

/-- The key word added in word 1 cancels, so equal results have equal round indices as words. -/
theorem keyPerm_eq_iff (k : Oct Word) (c d : Nat) : keyPerm k c = keyPerm k d ↔ c % 2 ^ 16 = d % 2 ^ 16 := by
  rw [← BitVec.toNat_ofNat c, ← BitVec.toNat_ofNat d, BitVec.toNat_inj]
  refine ⟨fun h => ?_, keyPerm_congr k⟩
  have hw1 : k.w7 + BitVec.ofNat 16 c = k.w7 + BitVec.ofNat 16 d := congrArg Oct.w1 h
  exact (BitVec.add_right_inj k.w7).mp hw1

/-- Settles O10. -/
theorem keyPermutationIndexLaw : Obligations.KeyPermutationIndexLaw := fun k c d =>
  ⟨keyPerm_w1 k c, fun _ hi => keyPerm_get_of_ne_one k c d hi, keyPerm_eq_iff k c d⟩

/-! ## The inverse of KP (R142) -/

/-- The inverse of KP(., c): the rotation of the words, the three additions and A undone, the last step first. Words 2
and 3 hold A's results, which is what step 2 added to the words now in 4 and 5. -/
def keyPermInv (n : Oct Word) (c : Nat) : Oct Word :=
  let k := roundAInv n.w2 n.w3
  ⟨k.1, k.2, n.w4 - n.w2, n.w5 - n.w3, n.w6, n.w7, n.w0, n.w1 - BitVec.ofNat 16 c⟩

theorem keyPermInv_keyPerm (k : Oct Word) (c : Nat) : keyPermInv (keyPerm k c) c = k := by
  simp only [keyPerm, keyPermInv, roundAInv_roundA, BitVec.add_sub_cancel]

theorem keyPerm_keyPermInv (n : Oct Word) (c : Nat) : keyPerm (keyPermInv n c) c = n := by
  simp only [keyPerm, keyPermInv, roundA_roundAInv, BitVec.sub_add_cancel]

/-- Settles O11: KP has an inverse on both sides. -/
theorem keyPermutationIsBijective : Obligations.KeyPermutationIsBijective := fun c =>
  Function.bijective_iff_has_inverse.mpr
    ⟨fun n => keyPermInv n c, fun k => keyPermInv_keyPerm k c, fun n => keyPerm_keyPermInv n c⟩

/-! ## KLOAD and KPERM (R143, R144) -/

/-- Settles O24: the word of KLOAD, and the completion of a command that replaces KR by MK. -/
theorem kloadCopiesTheMasterKey : Obligations.KloadCopiesTheMasterKey :=
  ⟨decodeOfEncode .kload rfl, fun _ => ⟨_, Computed.kload.exec_eq, rfl⟩⟩

/-- KP with the index in RIDX, in the index form of R140: the word of the index is RIDX itself. -/
theorem keyPerm_roundIndex (k : Oct Word) (s : State) :
    keyPerm k s.roundIndex =
      ⟨k.w6, k.w7 + s.ridx, (roundA k.w0 k.w1).1, (roundA k.w0 k.w1).2,
        k.w2 + (roundA k.w0 k.w1).1, k.w3 + (roundA k.w0 k.w1).2, k.w4, k.w5⟩ := by
  rw [keyPerm, State.roundIndex, BitVec.ofNat_toNat, BitVec.setWidth_eq]

/-- Settles O25: the word of KPERM, and the completion of a command that replaces KR by KP(KR, RIDX). -/
theorem kpermAppliesTheKeyPermutation : Obligations.KpermAppliesTheKeyPermutation :=
  ⟨decodeOfEncode .kperm rfl, fun s => ⟨_, Computed.kperm.exec_eq, keyPerm_roundIndex s.kr s, rfl⟩⟩

end Sys2Proof.Machine

/-! # Proofs: the key schedule and KSCHED (43_key_schedule.md) -/

namespace Sys2Proof.Machine

/-! ## The table (R161, R163) -/

/-- The storage after a build: word w of KP^(c)(mk) inside the logical table, and what it held everywhere else. -/
theorem read_buildTable (mk : Oct Word) (n r : Nat) {m : Memory} (h : m.wf = true) (c : Nat) (w : Fin 8) :
    (buildTable mk n r m).read (skAddr c w.val) =
      if c ≤ 2 * n ∧ w.val < 2 * r then (keyAt mk c).get w else m.read (skAddr c w.val) := by
  have hin : (0 ≤ c ∧ c < 0 + (2 * n + 1) ∧ w.val < 2 * r) ↔ (c ≤ 2 * n ∧ w.val < 2 * r) := by omega
  exact (read_recordEntries mk r (2 * n + 1) 0 h c w).trans (if_congr hin rfl rfl)

/-- A build writes no address below the storage's window. -/
theorem read_buildTable_below (mk : Oct Word) (n r : Nat) {m : Memory} (h : m.wf = true) {a : Nat} (ha : a < 0x100) :
    (buildTable mk n r m).read a = m.read a :=
  read_recordEntries_below r (2 * n + 1) 0 mk h ha

/-- Settles O17: a common word lies in both logical tables, and each holds KP^(c)(mk)[w] there. -/
theorem schedulesAgreeOnCommonWords : Obligations.SchedulesAgreeOnCommonWords := by
  intro mk n r r' c w m m' hm hm' hc hw
  have hr : w.val < 2 * r := by omega
  have hr' : w.val < 2 * r' := by omega
  rw [read_buildTable mk n r hm, if_pos ⟨hc, hr⟩, read_buildTable mk n r' hm', if_pos ⟨hc, hr'⟩]

/-! ## KSCHED (R162, R164, R165) -/

/-- Settles O26: an accepted configuration computes the table, and CFG's writable bits are latched. -/
theorem kschedBuildsTheTable : Obligations.KschedBuildsTheTable := by
  intro s hwf hn hmax hr hr4
  have hu := Computed.ksched (s := s) ⟨⟨hn, hmax⟩, hr, hr4⟩
  exact ⟨_, hu.exec_eq, fun c w => read_buildTable s.mkey s.cfgSteps s.cfgRps hwf c w,
    fun _ ha => read_buildTable_below s.mkey s.cfgSteps s.cfgRps hwf ha,
    stepsField_cfgWritable s.cfg, rpsField_cfgWritable s.cfg, cfgWritable_lt s.cfg, rfl⟩

/-- R162's capacity condition, on the entries of the table, is one on the steps. -/
theorem configCause_eq (maxSteps n r : Nat) :
    configCause maxSteps n r = ⟨decide (8 < 2 * r), decide (r < 2), decide (n = 0), decide (maxSteps < n)⟩ := by
  have hcap : 2 * n + 1 > 2 * maxSteps + 1 ↔ maxSteps < n := by omega
  rw [configCause, decide_eq_decide.mpr hcap]

/-- Settles O27: ConfigError, with R162's four conditions as its causes, one of which holds. -/
theorem kschedRejectsTheConfiguration : Obligations.KschedRejectsTheConfiguration := by
  intro s h
  have herr : Raised s .ksched (.configError (configCause s.maxSteps.toNat s.cfgSteps s.cfgRps)) :=
    .config (by rwa [and_assoc])
  refine ⟨?_, by omega⟩
  rw [herr.exec_eq, configCause_eq]
  rfl

end Sys2Proof.Machine

/-! # Proofs: the step engine and its commands (44_step_engine.md) -/

namespace Sys2Proof.Machine

variable {s u v : State} {i j : Instr}

/-! ## The rounds of a branch and the steps of a range, as loops (R181, R183, R186) -/

theorem encRounds_eq_foldl (sk : Nat → Nat → Word) (e r : Nat) (p : Word × Word) :
    encRounds sk e r p = (List.range r).foldl (fun p j => encRound sk e j p) p := by
  induction r with
  | zero => rfl
  | succ r ih =>
    rw [encRounds, ih, List.range_succ, List.foldl_append]
    rfl

theorem decRounds_eq_foldl (sk : Nat → Nat → Word) (e r : Nat) (p : Word × Word) :
    decRounds sk e r p = (List.range r).reverse.foldl (fun p j => decRound sk e j p) p := by
  induction r generalizing p with
  | zero => rfl
  | succ r ih =>
    rw [decRounds, ih, List.range_succ, List.reverse_append]
    rfl

theorem encSteps_eq_foldl (sk : Nat → Nat → Word) (r f k : Nat) (x : Quad Word) :
    encSteps sk r f k x = (List.range' f k).foldl (fun y s => encStep sk r s y) x := by
  induction k with
  | zero => rfl
  | succ k ih =>
    rw [encSteps, ih, List.range'_1_concat, List.foldl_append]
    rfl

theorem decSteps_eq_foldl (sk : Nat → Nat → Word) (r f k : Nat) (x : Quad Word) :
    decSteps sk r f k x = (List.range' f k).reverse.foldl (fun y s => decStep sk r s y) x := by
  induction k generalizing x with
  | zero => rfl
  | succ k ih =>
    rw [decSteps, ih, List.range'_1_concat, List.reverse_append]
    rfl

/-- Settles O12: the work on branch 0 leaves branch 1 as it was, so each loop starts from the step's own operand. -/
theorem stepsAreTheLoops : Obligations.StepsAreTheLoops := by
  intro sk r s x
  constructor
  · rw [encStep, encBranch, encBranch, encRounds_eq_foldl, encRounds_eq_foldl]
    rfl
  · rw [decStep, decBranch, decBranch, decRounds_eq_foldl, decRounds_eq_foldl]
    rfl

/-! ## The order of the branches (R184) -/

/-- Each branch's work reads and writes its own two words. -/
theorem encBranch_comm (sk : Nat → Nat → Word) (r s : Nat) (x : Quad Word) :
    encBranch sk r s .b1 (encBranch sk r s .b0 x) = encBranch sk r s .b0 (encBranch sk r s .b1 x) := rfl

theorem decBranch_comm (sk : Nat → Nat → Word) (r s : Nat) (x : Quad Word) :
    decBranch sk r s .b1 (decBranch sk r s .b0 x) = decBranch sk r s .b0 (decBranch sk r s .b1 x) := rfl

section
variable {sk sk' : Nat → Nat → Word} {e : Nat}

/-- The rounds read no entry but their own. -/
theorem encRounds_congr (h : ∀ w, sk e w = sk' e w) (r : Nat) (p : Word × Word) :
    encRounds sk e r p = encRounds sk' e r p := by
  simp only [encRounds_eq_foldl, encRound, h]

theorem decRounds_congr (h : ∀ w, sk e w = sk' e w) (r : Nat) (p : Word × Word) :
    decRounds sk e r p = decRounds sk' e r p := by
  simp only [decRounds_eq_foldl, decRound, h]

end

/-- Settles O16: the branches share no word of ST and no entry. -/
theorem branchOrderDoesNotMatter : Obligations.BranchOrderDoesNotMatter := by
  intro sk r s x
  refine ⟨congrArg linL (encBranch_comm sk r s x), decBranch_comm sk r s (linLInv x), fun b sk' h => ⟨?_, ?_⟩,
    fun b => ⟨Quad.branch_setBranch_other x b _, Quad.branch_setBranch_other x b _⟩⟩
  · rw [encBranch, encBranch, encRounds_congr h]
  · rw [decBranch, decBranch, decRounds_congr h]

/-! ## The ranges (R182, R186) -/

/-- Whitening undone comes before the steps, whatever the range. -/
theorem decRange_eq (sk : Nat → Nat → Word) (n r f t : Nat) (x : Quad Word) :
    decRange sk n r f t x = decSteps sk r f (t + 1 - f) (if t = n then whiten sk n x else x) :=
  (apply_ite (decSteps sk r f (t + 1 - f)) (t = n) _ _).symm

theorem whiten_get (sk : Nat → Nat → Word) (n : Nat) (x : Quad Word) (i : Fin 4) :
    (whiten sk n x).get i = x.get i ^^^ sk (2 * n) i.val := by
  fin_cases i <;> rfl

theorem whiten_whiten (sk : Nat → Nat → Word) (n : Nat) (x : Quad Word) : whiten sk n (whiten sk n x) = x :=
  Quad.ext_get fun i => by rw [whiten_get, whiten_get, xor_cancel_right]

/-- Settles O13: the steps are loops, and the whitening XORs the same words in each time. -/
theorem rangesAreTheLoops : Obligations.RangesAreTheLoops := by
  intro sk n r f t x
  refine ⟨?_, ?_, whiten_get sk n x, whiten_whiten sk n x⟩
  · rw [encRange, encSteps_eq_foldl]
  · rw [decRange_eq, decSteps_eq_foldl]

/-! ## The round trip (R187), from the rounds up to the ranges -/

/-- A loop is undone by the loop of the inverses in the reverse order. -/
theorem foldl_reverse_foldl_cancel {α β : Type} {f g : β → α → β} (h : ∀ x a, g (f x a) a = x) (l : List α)
    (x : β) : l.reverse.foldl g (l.foldl f x) = x := by
  induction l generalizing x with
  | nil => rfl
  | cons a l ih =>
    rw [List.reverse_cons, List.foldl_append, List.foldl_cons (b := x), ih]
    exact h x a

theorem foldl_foldl_reverse_cancel {α β : Type} {f g : β → α → β} (h : ∀ x a, f (g x a) a = x) (l : List α)
    (x : β) : l.foldl f (l.reverse.foldl g x) = x := by
  simpa only [List.reverse_reverse] using foldl_reverse_foldl_cancel h l.reverse x

section
variable (sk : Nat → Nat → Word)

theorem decRound_encRound (e j : Nat) (p : Word × Word) : decRound sk e j (encRound sk e j p) = p := by
  rw [decRound, encRound, roundAInv_roundA, xor_cancel_right, xor_cancel_right]

theorem encRound_decRound (e j : Nat) (p : Word × Word) : encRound sk e j (decRound sk e j p) = p := by
  rw [encRound, decRound, xor_cancel_right, xor_cancel_right, roundA_roundAInv]

theorem decRounds_encRounds (e r : Nat) (p : Word × Word) : decRounds sk e r (encRounds sk e r p) = p := by
  rw [decRounds_eq_foldl, encRounds_eq_foldl]
  exact foldl_reverse_foldl_cancel (fun p j => decRound_encRound sk e j p) _ p

theorem encRounds_decRounds (e r : Nat) (p : Word × Word) : encRounds sk e r (decRounds sk e r p) = p := by
  rw [decRounds_eq_foldl, encRounds_eq_foldl]
  exact foldl_foldl_reverse_cancel (fun p j => encRound_decRound sk e j p) _ p

theorem decBranch_encBranch (r s : Nat) (b : Branch) (x : Quad Word) :
    decBranch sk r s b (encBranch sk r s b x) = x := by
  rw [decBranch, encBranch, Quad.branch_setBranch_same, Quad.setBranch_setBranch, decRounds_encRounds,
    Quad.setBranch_branch]

theorem encBranch_decBranch (r s : Nat) (b : Branch) (x : Quad Word) :
    encBranch sk r s b (decBranch sk r s b x) = x := by
  rw [decBranch, encBranch, Quad.branch_setBranch_same, Quad.setBranch_setBranch, encRounds_decRounds,
    Quad.setBranch_branch]

theorem decStep_encStep (r s : Nat) (x : Quad Word) : decStep sk r s (encStep sk r s x) = x := by
  rw [decStep, encStep, linLInv_linL, encBranch_comm, decBranch_encBranch, decBranch_encBranch]

theorem encStep_decStep (r s : Nat) (x : Quad Word) : encStep sk r s (decStep sk r s x) = x := by
  rw [encStep, decStep, decBranch_comm, encBranch_decBranch, encBranch_decBranch, linL_linLInv]

theorem decSteps_encSteps (r f k : Nat) (x : Quad Word) : decSteps sk r f k (encSteps sk r f k x) = x := by
  rw [decSteps_eq_foldl, encSteps_eq_foldl]
  exact foldl_reverse_foldl_cancel (fun y s => decStep_encStep sk r s y) _ x

theorem encSteps_decSteps (r f k : Nat) (x : Quad Word) : encSteps sk r f k (decSteps sk r f k x) = x := by
  rw [decSteps_eq_foldl, encSteps_eq_foldl]
  exact foldl_foldl_reverse_cancel (fun y s => encStep_decStep sk r s y) _ x

theorem decRange_encRange (n r f t : Nat) (x : Quad Word) : decRange sk n r f t (encRange sk n r f t x) = x := by
  by_cases ht : t = n
  · rw [decRange, if_pos ht, encRange, if_pos ht, whiten_whiten, decSteps_encSteps]
  · rw [decRange, if_neg ht, encRange, if_neg ht, decSteps_encSteps]

theorem encRange_decRange (n r f t : Nat) (x : Quad Word) : encRange sk n r f t (decRange sk n r f t x) = x := by
  by_cases ht : t = n
  · rw [decRange, if_pos ht, encRange, if_pos ht, encSteps_decSteps, whiten_whiten]
  · rw [decRange, if_neg ht, encRange, if_neg ht, encSteps_decSteps]

end

/-- Settles O14: the steps undo each other, and so does the whitening, at the end t = N of either. -/
theorem rangeRoundTrip : Obligations.RangeRoundTrip := fun sk n r f t x =>
  ⟨decRange_encRange sk n r f t x, encRange_decRange sk n r f t x⟩

/-! ## Two contiguous ranges (R188) -/

theorem encSteps_add (sk : Nat → Nat → Word) (r f j k : Nat) (x : Quad Word) :
    encSteps sk r f (j + k) x = encSteps sk r (f + j) k (encSteps sk r f j x) := by
  simp only [encSteps_eq_foldl, ← List.foldl_append, List.range'_append_1]

theorem decSteps_add (sk : Nat → Nat → Word) (r f j k : Nat) (x : Quad Word) :
    decSteps sk r f (j + k) x = decSteps sk r f j (decSteps sk r (f + j) k x) := by
  simp only [decSteps_eq_foldl, ← List.foldl_append, ← List.reverse_append, List.range'_append_1]

/-- Settles O15: the inner range ends before N, so it does not whiten, and the whitening of the outer one is that of the
whole. -/
theorem rangeComposition : Obligations.RangeComposition := by
  intro sk n r a b c x _ hab hbc hcn
  have hb : b ≠ n := by omega
  have hcount : c + 1 - a = (b + 1 - a) + (c + 1 - (b + 1)) := by omega
  have hnext : a + (b + 1 - a) = b + 1 := by omega
  constructor
  · rw [encRange, encRange, encRange, if_neg hb, hcount, encSteps_add, hnext]
  · rw [decRange_eq, decRange_eq, decRange_eq, if_neg hb, hcount, decSteps_add, hnext]

/-! ## The commands (R190 to R193) -/

/-- Settles O28: with a table the run over 1..N replaces ST, and without one it is NoSchedule. -/
theorem encEncryptsTheFullRange : Obligations.EncEncryptsTheFullRange :=
  ⟨decodeOfEncode .enc rfl, fun _ =>
    ⟨fun hv => exec_withSt (.enc hv), fun hv => (Raised.noTableEnc hv).exec_eq⟩⟩

/-- Settles O29: the same two cases, with the decryption. -/
theorem decDecryptsTheFullRange : Obligations.DecDecryptsTheFullRange :=
  ⟨decodeOfEncode .dec rfl, fun _ =>
    ⟨fun hv => exec_withSt (.dec hv), fun hv => (Raised.noTableDec hv).exec_eq⟩⟩

/-- Settles O30: a valid RANGE replaces ST, a bad one is RangeError, and NoSchedule comes first. -/
theorem encsEncryptsThePartialRange : Obligations.EncsEncryptsThePartialRange :=
  ⟨decodeOfEncode .encs rfl, fun _ =>
    ⟨fun hv hf hft ht => exec_withSt (.encs hv ⟨hf, hft, ht⟩), fun hv hr => (Raised.rangeEncs hv hr).exec_eq,
      fun hv => (Raised.noTableEncs hv).exec_eq⟩⟩

/-- Settles O31: the same three cases, with the decryption. -/
theorem decsDecryptsThePartialRange : Obligations.DecsDecryptsThePartialRange :=
  ⟨decodeOfEncode .decs rfl, fun _ =>
    ⟨fun hv hf hft ht => exec_withSt (.decs hv ⟨hf, hft, ht⟩), fun hv hr => (Raised.rangeDecs hv hr).exec_eq,
      fun hv => (Raised.noTableDecs hv).exec_eq⟩⟩

/-! ## Decryption after encryption, and the other way round (R187) -/

/-- A second command that, in the completion of the first, computes the ST before the first restores it. -/
theorem Computed.exec_restores (hu : Computed s i u)
    (hv : Computed ((u.complete .none Cause.clear).noteUse (s.operandsDefined i)) j v) (hst : v.st = s.st) :
    ∃ t w, exec i s = .next t ∧ exec j t = .next w ∧ w.st = s.st :=
  ⟨_, _, hu.exec_eq, hv.exec_eq, hst⟩

/-- The completion of an encryption leaves the table, so a decryption over the same range undoes it. -/
theorem State.decrypt_encrypt_st (s : State) (f t : Nat) (d : Bool) :
    ((((s.encrypt f t).complete .none Cause.clear).noteUse d).decrypt f t).st = s.st :=
  decRange_encRange s.skWord s.tblSteps s.tblRps f t s.st

theorem State.encrypt_decrypt_st (s : State) (f t : Nat) (d : Bool) :
    ((((s.decrypt f t).complete .none Cause.clear).noteUse d).encrypt f t).st = s.st :=
  encRange_decRange s.skWord s.tblSteps s.tblRps f t s.st

/-- Settles O32: the first command leaves TBL_VALID, TBL_CFG and RANGE, so the second completes over the same range. -/
theorem decryptionRestoresTheBlock : Obligations.DecryptionRestoresTheBlock := by
  intro s hv
  refine ⟨?_, ?_, fun hf hft ht => ?_⟩
  · exact (Computed.enc hv).exec_restores (.dec hv) (s.decrypt_encrypt_st 1 s.tblSteps _)
  · exact (Computed.dec hv).exec_restores (.enc hv) (s.encrypt_decrypt_st 1 s.tblSteps _)
  · have hr := And.intro hf (And.intro hft ht)
    constructor
    · exact (Computed.encs hv hr).exec_restores (.decs hv hr) (s.decrypt_encrypt_st s.fromStep s.toStep _)
    · exact (Computed.decs hv hr).exec_restores (.encs hv hr) (s.encrypt_decrypt_st s.fromStep s.toStep _)

/-! ## The whole range (R192, R193) -/

section
variable (hf : s.fromStep = 1) (ht : s.toStep = s.tblSteps) (hn : 1 ≤ s.tblSteps)
include hf ht hn

theorem rangeOk_whole : rangeOk s.tblSteps s.fromStep s.toStep = true :=
  (rangeOk_iff _ _ _).mpr (by omega)

theorem partialRange_whole (run : State → Nat → Nat → State) : partialRange run s = fullRange run s := by
  rw [partialRange, rangeOk_whole hf ht hn, if_neg (show ¬true = false by decide), hf, ht, fullRange]

theorem State.partialDefined_whole : s.partialDefined = s.fullDefined := by
  rw [State.partialDefined, rangeOk_whole hf ht hn, Bool.not_true, Bool.or_false, hf, ht, State.fullDefined]

theorem perform_partialRange_whole (run : State → Nat → Nat → State) :
    perform s.partialDefined (partialRange run) s = perform s.fullDefined (fullRange run) s := by
  rw [perform, perform, partialRange_whole hf ht hn, State.partialDefined_whole hf ht hn]

end

/-- Settles O33: RANGE names steps 1..N, so the partial commands compute, and use, what the full ones do. -/
theorem wholeRangeIsTheFullCommand : Obligations.WholeRangeIsTheFullCommand := by
  intro s hn hrange
  have hf : s.fromStep = 1 := by
    rw [State.fromStep_eq]
    omega
  have ht : s.toStep = s.tblSteps := by
    rw [State.toStep_eq]
    omega
  exact ⟨perform_partialRange_whole hf ht hn State.encrypt, perform_partialRange_whole hf ht hn State.decrypt⟩

end Sys2Proof.Machine

/-! # Proofs: NOP (45_control.md) -/

namespace Sys2Proof.Machine

/-- R220: NOP computes nothing and uses no data word, so its completion is all it does. -/
theorem exec_nop (s : State) : exec .nop s = .next (s.complete .none Cause.clear) := by
  have hused : s.operandsDefined .nop = true := rfl
  rw [(Computed.nop (s := s)).exec_eq, hused, State.noteUse_true]

/-- Settles O18: OP = 0 is NOP's in one word only, and the completion of NOP writes BUSY, ERR and CAUSE. -/
theorem nopClearsTheErrorFields : Obligations.NopClearsTheErrorFields := by
  refine ⟨decodeOfEncode .nop rfl, fun v hv hop => ?_, exec_nop⟩
  exact decode_of_ne_opField (by rw [hop]; decide) (by rw [hop]; decide) (by rwa [hop])

end Sys2Proof.Machine

/-! # Proofs: errors (60_exceptions.md) -/

namespace Sys2Proof.Machine

/-- Settles O34: the 14 words are the commands' encodings, and IllegalCommand is taken in the state itself. -/
theorem illegalWordWritesOnlyStatus : Obligations.IllegalWordWritesOnlyStatus := fun v _ hv =>
  ⟨decode_eq_illegal_iff.mpr hv, (Raised.illegal v).exec_eq⟩

/-- Settles O35: what a command computes completes without an error, and an error is taken in the state before it. -/
theorem errorLeavesAllButStatus : Obligations.ErrorLeavesAllButStatus := by
  intro i s t h herr
  rcases exec_next h with ⟨u, _, rfl⟩ | ⟨e, he, rfl⟩
  · exact absurd rfl herr
  · exact ⟨rfl, he.statusConsistent.causeOnlyConfig⟩

/-- R162's conditions on R as bounds on R itself. -/
theorem configCause_eq_bounds (maxSteps n r : Nat) :
    configCause maxSteps n r = ⟨decide (5 ≤ r), decide (r ≤ 1), decide (n = 0), decide (maxSteps < n)⟩ := by
  have hlarge : 8 < 2 * r ↔ 5 ≤ r := by omega
  have hsmall : r < 2 ↔ r ≤ 1 := by omega
  rw [configCause_eq, decide_eq_decide.mpr hlarge, decide_eq_decide.mpr hsmall]

/-- R236: KSCHED ends in R162's check, which has no cause exactly when the configuration is accepted. -/
theorem exec_ksched_err_cause {s t : State} (h : exec .ksched s = .next t) :
    t.err = (if 1 ≤ s.cfgSteps ∧ s.cfgSteps ≤ s.maxSteps.toNat ∧ 2 ≤ s.cfgRps ∧ s.cfgRps ≤ 4 then .none
      else .configError) ∧
    t.cause = configCause s.maxSteps.toNat s.cfgSteps s.cfgRps := by
  rcases exec_next h with ⟨u, hu, rfl⟩ | ⟨e, he, rfl⟩
  · cases hu with
    | ksched hok => exact ⟨(if_pos (and_assoc.mp hok)).symm, ((configCause_clear_iff _ _ _).mpr hok).symm⟩
  · cases he with
    | config hbad => exact ⟨(if_neg (mt and_assoc.mpr hbad)).symm, rfl⟩

/-- Settles O36: what a command computes and what it raises, each under its own condition. -/
theorem errorOfEveryCommand : Obligations.ErrorOfEveryCommand := by
  intro i s t h
  by_cases hi : i = .ksched
  · subst hi
    obtain ⟨herr, hcause⟩ := exec_ksched_err_cause h
    rw [herr, hcause, configCause_eq_bounds]
  · rcases exec_next h with ⟨u, hu, rfl⟩ | ⟨e, he, rfl⟩
    · cases hu with
      | ksched => exact absurd rfl hi
      | nop | arx | arxi | lin | lini | kload | kperm => rfl
      | enc hv | dec hv => simp [hv, Cause.clear]
      | encs hv hr | decs hv hr => simp [hv, hr, Cause.clear]
    · cases he with
      | config => exact absurd rfl hi
      | illegal => rfl
      | noTableEnc hv | noTableDec hv | noTableEncs hv | noTableDecs hv =>
        simp [hv, CommandError.err, CommandError.cause, Cause.clear]
      | rangeEncs hv hr | rangeDecs hv hr => simp [hv, hr, CommandError.err, CommandError.cause, Cause.clear]

end Sys2Proof.Machine
